-- ==== Sys2Proof/Word.lean ====
section
/-! DEFINITION. The widths of the block's words (spec/00_scope.md rule R5, rule R6). -/

namespace Sys2Proof

/-- A code: an unsigned 12-bit value (R5 CODE_W). -/
abbrev Code := BitVec 12

/-- A byte: an unsigned 8-bit value (R5 BYTE_W). -/
abbrev Byte := BitVec 8

/-- A PK command word, format PCMD (R44). -/
abbrev PWord := BitVec 14

/-- A UP command word, format UCMD (R45). -/
abbrev UWord := BitVec 10

/-- An output word: the 24 bits of one triple or of one pair (R49, R52). -/
abbrev OutWord := BitVec 24

end Sys2Proof
end

