-- ==== Sys2Proof/Syntax.lean ====
section
/-! DEFINITION. The command words as constructors, the words on the two ports, and the lines of a command script
(spec/30_encoding.md). -/

namespace Sys2Proof

/-- One constructor per row of spec/opcode_table.json. The ignored operand field of NOP, END and CLR is recorded
nowhere (R53), so these carry no operand; a PUSH operand has exactly the width of its data (R44, R45, R100). -/
inductive Instr where
  /-- P.NOP (R58). -/
  | pNop
  /-- P.PUSH code (R59). -/
  | pPush (code : Code)
  /-- P.END (R60). -/
  | pEnd
  /-- P.CLR (R61). -/
  | pClr
  /-- U.NOP (R66). -/
  | uNop
  /-- U.PUSH byte (R67). -/
  | uPush (byte : Byte)
  /-- U.END (R68). -/
  | uEnd
  /-- U.CLR (R69). -/
  | uClr
  deriving DecidableEq, Repr

/-- The two command ports (R43: the port a word arrives on decides its format). -/
inductive Port where
  /-- The packer's port: PCMD words. -/
  | pk
  /-- The unpacker's port: UCMD words. -/
  | up
  deriving DecidableEq, Repr

/-- A command word together with the port it is presented on (R43). -/
inductive CommandWord where
  /-- A 14-bit word on the packer's port (R44). -/
  | pcmd (w : PWord)
  /-- A 10-bit word on the unpacker's port (R45). -/
  | ucmd (w : UWord)
  deriving DecidableEq, Repr

/-- The port a command word is presented on. -/
def CommandWord.port : CommandWord → Port
  | .pcmd _ => .pk
  | .ucmd _ => .up

/-- One thing the host does to the block between two steps: present one command word on one port, or apply reset,
with or without words on the ports at the same time (R98, R105). -/
inductive HostInput where
  /-- A command word is presented on its port. -/
  | cmd (w : CommandWord)
  /-- `rst` is applied; `p` and `u` are the words presented on the two ports while it is, if any. -/
  | rst (p : Option PWord) (u : Option UWord)
  deriving DecidableEq, Repr

/-- A line of a command script (R54) or a pseudo-operation (R55), its operands as the host writes them: numbers that
may be out of range. -/
inductive ScriptLine where
  | pNop
  | pPush (code : Int)
  | pEnd
  | pClr
  | uNop
  | uPush (byte : Int)
  | uEnd
  | uClr
  /-- `P.PACK [c_0, …]` (R55). -/
  | pPack (codes : List Int)
  /-- `U.UNPACK [b_0, …]` (R55). -/
  | uUnpack (bytes : List Int)
  deriving DecidableEq, Repr

end Sys2Proof
end

