-- ==== Sys2Proof/WellFormed.lean ====
section
/-! DEFINITION. When a script line may be assembled (spec/30_encoding.md rule R54). A command word needs no such
check: its operand's type has the width of the data, so that an out-of-range code is not expressible
(spec/60_exceptions.md rule R100), and every word of either format is an instruction (R43, R53). -/

namespace Sys2Proof

/-- A code in the range 0 to 4095 (R44, R54). -/
def codeInRange (c : Int) : Bool := decide (0 ≤ c) && decide (c ≤ 4095)

/-- A byte in the range 0 to 255 (R45, R54). -/
def byteInRange (b : Int) : Bool := decide (0 ≤ b) && decide (b ≤ 255)

/-- The operands of a line are in range: otherwise the line has no encoding (R54). -/
def ScriptLine.wellFormed : ScriptLine → Bool
  | .pNop | .pEnd | .pClr | .uNop | .uEnd | .uClr => true
  | .pPush c => codeInRange c
  | .uPush b => byteInRange b
  | .pPack cs => cs.all codeInRange
  | .uUnpack bs => bs.all byteInRange

end Sys2Proof
end

