-- ==== Sys2Proof/Decode.lean ====
section
/-! DEFINITION. Decoding and encoding of the command words (spec/30_encoding.md rules R43 to R46, R53 to R56), and
the assembler of script lines. Decoding is total: every value of either format is an instruction (R43). -/

namespace Sys2Proof

/-- `op`, the two most significant bits of a PCMD word (R44). -/
def pOp (w : PWord) : BitVec 2 := w.extractLsb' 12 2

/-- `code`, the operand field of a PCMD word (R44). -/
def pCode (w : PWord) : Code := w.extractLsb' 0 12

/-- `op`, the two most significant bits of a UCMD word (R45). -/
def uOp (w : UWord) : BitVec 2 := w.extractLsb' 8 2

/-- `byte`, the operand field of a UCMD word (R45). -/
def uByte (w : UWord) : Byte := w.extractLsb' 0 8

/-- The instruction of a PCMD word (R46); the field `code` is read by P.PUSH alone (R53). -/
def decodeP (w : PWord) : Instr :=
  if pOp w = 0b00#2 then .pNop
  else if pOp w = 0b01#2 then .pPush (pCode w)
  else if pOp w = 0b10#2 then .pEnd
  else .pClr

/-- The instruction of a UCMD word (R46); the field `byte` is read by U.PUSH alone (R53). -/
def decodeU (w : UWord) : Instr :=
  if uOp w = 0b00#2 then .uNop
  else if uOp w = 0b01#2 then .uPush (uByte w)
  else if uOp w = 0b10#2 then .uEnd
  else .uClr

/-- The port chooses the format (R43). -/
def decode : CommandWord → Instr
  | .pcmd w => decodeP w
  | .ucmd w => decodeU w

/-- The word of an instruction, with a zero operand field where it is ignored (R54). -/
def encode : Instr → CommandWord
  | .pNop => .pcmd (0b00#2 ++ 0#12)
  | .pPush c => .pcmd (0b01#2 ++ c)
  | .pEnd => .pcmd (0b10#2 ++ 0#12)
  | .pClr => .pcmd (0b11#2 ++ 0#12)
  | .uNop => .ucmd (0b00#2 ++ 0#8)
  | .uPush b => .ucmd (0b01#2 ++ b)
  | .uEnd => .ucmd (0b10#2 ++ 0#8)
  | .uClr => .ucmd (0b11#2 ++ 0#8)

/-- A row of the opcode table as R46 and R56 give it: a word `w` of the port is the instruction when
`w & mask = pattern`. -/
structure OpcodeRow where
  mnemonic : String
  port : Port
  pattern : Nat
  mask : Nat
  deriving DecidableEq, Repr

/-- The match and mask table of R46. -/
def opcodeRows : List OpcodeRow :=
  [⟨"P.NOP", .pk, 0x0000, 0x3000⟩, ⟨"P.PUSH", .pk, 0x1000, 0x3000⟩,
   ⟨"P.END", .pk, 0x2000, 0x3000⟩, ⟨"P.CLR", .pk, 0x3000, 0x3000⟩,
   ⟨"U.NOP", .up, 0x000, 0x300⟩, ⟨"U.PUSH", .up, 0x100, 0x300⟩,
   ⟨"U.END", .up, 0x200, 0x300⟩, ⟨"U.CLR", .up, 0x300, 0x300⟩]

/-- The number on the wires of a port. -/
def CommandWord.value : CommandWord → Nat
  | .pcmd w => w.toNat
  | .ucmd w => w.toNat

/-- The row matches the word: same port, and the masked word is the row's pattern (R46, R56). -/
def OpcodeRow.fits (r : OpcodeRow) (w : CommandWord) : Bool :=
  decide (r.port = w.port) && decide (w.value &&& r.mask = r.pattern)

/-- The mnemonic of an instruction (R46). -/
def Instr.mnemonic : Instr → String
  | .pNop => "P.NOP"
  | .pPush _ => "P.PUSH"
  | .pEnd => "P.END"
  | .pClr => "P.CLR"
  | .uNop => "U.NOP"
  | .uPush _ => "U.PUSH"
  | .uEnd => "U.END"
  | .uClr => "U.CLR"

/-- The port whose words an instruction is (R43). -/
def Instr.port : Instr → Port
  | .pNop | .pPush _ | .pEnd | .pClr => .pk
  | .uNop | .uPush _ | .uEnd | .uClr => .up

/-! ### The assembler (R54, R55) -/

/-- Why a script line has no encoding (R54). -/
inductive ScriptError where
  /-- A code below 0 or above 4095. -/
  | codeOutOfRange
  /-- A byte below 0 or above 255. -/
  | byteOutOfRange
  deriving DecidableEq, Repr

/-- What the assembler answers: the command words of a line, or a refusal by name. -/
inductive Assembled where
  | words (ws : List CommandWord)
  | refused (why : ScriptError)
  deriving DecidableEq, Repr

/-- The instructions of P.PACK (R55): a P.PUSH for each code, then one P.END. -/
def packExpansion (cs : List Code) : List Instr := cs.map .pPush ++ [.pEnd]

/-- The instructions of U.UNPACK (R55): a U.PUSH for each byte, then one U.END. -/
def unpackExpansion (bs : List Byte) : List Instr := bs.map .uPush ++ [.uEnd]

/-- The instructions a well-formed line stands for (R54, R55). -/
def ScriptLine.expand : ScriptLine → List Instr
  | .pNop => [.pNop]
  | .pPush c => [.pPush (BitVec.ofInt 12 c)]
  | .pEnd => [.pEnd]
  | .pClr => [.pClr]
  | .uNop => [.uNop]
  | .uPush b => [.uPush (BitVec.ofInt 8 b)]
  | .uEnd => [.uEnd]
  | .uClr => [.uClr]
  | .pPack cs => packExpansion (cs.map (BitVec.ofInt 12))
  | .uUnpack bs => unpackExpansion (bs.map (BitVec.ofInt 8))

/-- The reason a line that is not well formed is refused: its operands are codes on a `P.` line and bytes on a `U.`
line (R54). -/
def ScriptLine.error : ScriptLine → ScriptError
  | .uNop | .uPush _ | .uEnd | .uClr | .uUnpack _ => .byteOutOfRange
  | .pNop | .pPush _ | .pEnd | .pClr | .pPack _ => .codeOutOfRange

/-- Assemble a line: its words, or a refusal where an operand is out of range; nothing is truncated (R54, R115). -/
def assemble (l : ScriptLine) : Assembled :=
  if l.wellFormed then .words (l.expand.map encode) else .refused l.error

/-! ### The opcode table's numbering -/

/-- The command word of an opcode-table row's number, with its port. The table numbers a PCMD word in 14 bits and a
UCMD word in 10; told in whole bytes both are 16, and the number alone then does not name the port. There a number
that fits 10 bits is taken as a UCMD word and a larger one as a PCMD word. DESIGN CHOICE, safe (log 9): no step of the
machine uses this function. -/
def tableWord (nbits w : Nat) : Option CommandWord :=
  if nbits = 14 then (if w < 2 ^ 14 then some (.pcmd (BitVec.ofNat 14 w)) else none)
  else if nbits = 10 then (if w < 2 ^ 10 then some (.ucmd (BitVec.ofNat 10 w)) else none)
  else if nbits = 16 then
    (if w < 2 ^ 10 then some (.ucmd (BitVec.ofNat 10 w))
     else if w < 2 ^ 14 then some (.pcmd (BitVec.ofNat 14 w))
     else none)
  else none

/-- The instruction the decoder reads from an opcode-table row's number; none where no port carries such a word. -/
def decodeTableWord (nbits w : Nat) : Option Instr :=
  match tableWord nbits w with
  | some cw => some (decode cw)
  | none => none

end Sys2Proof
end

