-- ==== Sys2Proof/Config.lean ====
section
/-! DEFINITION. What is fixed for the machine (spec/00_scope.md rule R5): the spec leaves no parameter to an
implementation. The three reset values the spec leaves unspecified (spec/10_state.md rule R24) are named here. -/

namespace Sys2Proof

/-- PAD, the virtual code that completes an odd tail (R5, R50). -/
def Config.padCode : Code := 0#12

/-- The cause code of "no exception" (60_exceptions.md R90). -/
def Config.causeNone : Nat := 0

/-- The cause code of FormatError (60_exceptions.md R90). -/
def Config.causeFormatError : Nat := 1

/-- `PK.HOLD` after reset. DESIGN CHOICE, unsafe (log 3): R24 says "unspecified (any value)". -/
def Config.resetHold : Code := 0#12

/-- `UP.B0` after reset. DESIGN CHOICE, unsafe (log 3): R24 says "unspecified (any value)". -/
def Config.resetB0 : Byte := 0#8

/-- `UP.B1` after reset. DESIGN CHOICE, unsafe (log 3): R24 says "unspecified (any value)". -/
def Config.resetB1 : Byte := 0#8

end Sys2Proof
end

