-- ==== Sys2Proof/Machine/State.lean ====
section
/-! DEFINITION. The machine's state as plain data, all of it, and the state after reset (spec/10_state.md). -/

namespace Sys2Proof.Machine

/-- The packer's state (R11 to R13). -/
structure Packer where
  /-- `PK.HOLD`, 12 bits: the first code of a pair (R11). Dead while `full` is false. -/
  hold : Code
  /-- `PK.FULL`, 1 bit: `hold` holds a code whose partner has not arrived (R12). -/
  full : Bool
  /-- `PK.OUT`: every byte emitted since reset, in order (R13). -/
  out : List Byte
  deriving DecidableEq, Repr

/-- How many bytes of the current triple are held: the values of `UP.CNT` while `UP.ERR = 0` (R15). -/
inductive Held where
  | zero
  | one
  | two
  deriving DecidableEq, Repr

/-- How many bytes were left over when FormatError was raised: the argument n of `raise FormatError(n)`, 1 or 2
(R90), and the values of `UP.CNT` while `UP.ERR = 1`. -/
inductive Leftover where
  | one
  | two
  deriving DecidableEq, Repr

/-- `UP.ERR` and `UP.CNT` in one value, of the five combinations that have a row in 41_unpacker.md R70. The others,
`UP.CNT = 3` and (`UP.ERR = 1`, `UP.CNT = 0`), have no behaviour, and the type excludes them as
93_implementation_defined.md U6 asks. -/
inductive UpControl where
  /-- `UP.ERR = 0`, `UP.CNT` the number of bytes held. -/
  | running (held : Held)
  /-- `UP.ERR = 1`, `UP.CNT` the leftover count of the FormatError. -/
  | faulted (left : Leftover)
  deriving DecidableEq, Repr

/-- The unpacker's state (R14 to R17). -/
structure Unpacker where
  /-- `UP.B0`, 8 bits: byte0 of the triple being assembled (R14). Dead while `UP.CNT = 0`. -/
  b0 : Byte
  /-- `UP.B1`, 8 bits: byte1 of the triple being assembled (R14). Dead while `UP.CNT < 2`. -/
  b1 : Byte
  /-- `UP.ERR` (R16) and `UP.CNT` (R15). -/
  ctl : UpControl
  /-- `UP.OUT`: every code emitted since reset, in order (R17). -/
  out : List Code
  deriving DecidableEq, Repr

/-- The whole machine: two units that share nothing (R2), and what the host has presented to them. -/
structure State where
  /-- The packer. -/
  pk : Packer
  /-- The unpacker. -/
  up : Unpacker
  /-- The command streams and `rst`: what the host has presented and no step has taken yet, oldest first, in the one
  interleaving the host chose (R28, R54). The model's own field (log 1): the spec calls these inputs (R21). -/
  pending : List HostInput
  deriving DecidableEq, Repr

/-- Why the machine stops with a fault: never. Its one exception, FormatError, has an entry the spec describes
(60_exceptions.md R93) and is taken as a next state; the packer has none (R64) and every row of R62 and R70 is
defined. So there is no constructor, raised by nobody (safe: log 5). -/
inductive Fault where
  deriving DecidableEq, Repr

/-- Why a step is refused. -/
inductive Refusal where
  /-- Answered by an arm of exec whose instruction has no meaning yet, with its mnemonic: by none, since all eight have
  theirs. Safe. -/
  | notModelled (mnemonic : String)
  deriving DecidableEq, Repr

/-- The state after reset (R24, R105). `hold`, `b0` and `b1` are unspecified there and hold the values of Config
(log 3); the host has presented nothing (log 1). -/
def State.reset : State where
  pk := { hold := Config.resetHold, full := false, out := [] }
  up := { b0 := Config.resetB0, b1 := Config.resetB1, ctl := .running .zero, out := [] }
  pending := []

end Sys2Proof.Machine
end

