-- ==== Sys2Proof/Machine/Flags.lean ====
section
/-! DEFINITION. The flags as the host sees them: `UP.CNT`, `UP.ERR`, the status words, the fault line and the cause
code (spec/10_state.md rules R15 to R19, R25; spec/60_exceptions.md rules R90, R99). Each is a function of the state,
so sampling one has no side effect (R38). -/

namespace Sys2Proof.Machine

/-- The number of held bytes as the 2-bit value of `UP.CNT` (R15). -/
def heldBits : Held → BitVec 2
  | .zero => 0#2
  | .one => 1#2
  | .two => 2#2

/-- The leftover count as the 2-bit value of `UP.CNT` (R90). -/
def leftoverBits : Leftover → BitVec 2
  | .one => 1#2
  | .two => 2#2

/-- `UP.CNT` (R15): the bytes held, or in the faulted unit the leftover count (R93). -/
def cntOf (u : Unpacker) : BitVec 2 :=
  match u.ctl with
  | .running held => heldBits held
  | .faulted left => leftoverBits left

/-- `UP.ERR` (R16). -/
def errOf (u : Unpacker) : Bool :=
  match u.ctl with
  | .running _ => false
  | .faulted _ => true

/-- The next `UP.CNT` after an accepted byte: 0, 1, 2, 0 (R15, R25). -/
def nextHeld : Held → Held
  | .zero => .one
  | .one => .two
  | .two => .zero

/-- `PSTAT`: bit 0 is FULL (R18). -/
def pstat (s : State) : BitVec 1 := BitVec.ofBool s.pk.full

/-- `USTAT`: bit 2 is ERR, bits 1 to 0 are CNT (R19). -/
def ustat (s : State) : BitVec 3 := BitVec.ofBool (errOf s.up) ++ cntOf s.up

/-- The line `up_err`, equal to `UP.ERR` at all times (R99). -/
def upErr (s : State) : BitVec 1 := BitVec.ofBool (errOf s.up)

/-- The cause code: 1 once FormatError has been raised, else 0 (R90). -/
def causeCode (s : State) : Nat :=
  if errOf s.up then Config.causeFormatError else Config.causeNone

end Sys2Proof.Machine
end

