-- ==== Sys2Proof/Machine/Operands.lean ====
section
/-! DEFINITION. The data encoding: how two 12-bit codes lie in three bytes (spec/30_encoding.md rules R47 to R52). -/

namespace Sys2Proof.Machine

/-! ### Pair to triple (R47) -/

/-- byte0, "high 8 bits of c1": `c1[11:4]`. -/
def byte0Of (c1 : Code) : Byte := c1.extractLsb' 4 8

/-- byte1: `c1[3:0] ‖ c2[11:8]`. -/
def byte1Of (c1 c2 : Code) : Byte := c1.extractLsb' 0 4 ++ c2.extractLsb' 8 4

/-- byte2, "low 8 bits of c2": `c2[7:0]`. -/
def byte2Of (c2 : Code) : Byte := c2.extractLsb' 0 8

/-- The triple word `byte0 ‖ byte1 ‖ byte2` of a pair (R49, R52). -/
def tripleWord (c1 c2 : Code) : OutWord := byte0Of c1 ++ byte1Of c1 c2 ++ byte2Of c2

/-- The triple word of a lone code: the pair (c, 0) (R50). -/
def paddedWord (c : Code) : OutWord := tripleWord c Config.padCode

/-- The bytes a triple word is on `PK.OUT`: `t[23:16]`, `t[15:8]`, `t[7:0]` (R9, R34, R52). -/
def wordBytes (t : OutWord) : List Byte :=
  [t.extractLsb' 16 8, t.extractLsb' 8 8, t.extractLsb' 0 8]

/-! ### Triple to pair (R48) -/

/-- c1: `byte0[7:0] ‖ byte1[7:4]`. -/
def code1Of (b0 b1 : Byte) : Code := b0 ++ b1.extractLsb' 4 4

/-- c2: `byte1[3:0] ‖ byte2[7:0]`. -/
def code2Of (b1 b2 : Byte) : Code := b1.extractLsb' 0 4 ++ b2

/-- The pair word `c1 ‖ c2` of a triple (R49, R52). -/
def pairWord (b0 b1 b2 : Byte) : OutWord := code1Of b0 b1 ++ code2Of b1 b2

/-- The codes a pair word is on `UP.OUT`: `p[23:12]`, then `p[11:0]` (R9, R34, R52). -/
def wordCodes (p : OutWord) : List Code := [p.extractLsb' 12 12, p.extractLsb' 0 12]

/-! ### The document's integer formulas (R47, R48) -/

/-- R47 in arithmetic on non-negative integers: `c1 >> 4`, `((c1 & 0xF) << 4) | (c2 >> 8)`, `c2 & 0xFF`. -/
def tripleFormula (c1 c2 : Nat) : Nat × Nat × Nat :=
  (c1 >>> 4, ((c1 &&& 0xF) <<< 4) ||| (c2 >>> 8), c2 &&& 0xFF)

/-- R48 in arithmetic on non-negative integers: `(byte0 << 4) | (byte1 >> 4)`, `((byte1 & 0x0F) << 8) | byte2`. -/
def pairFormula (b0 b1 b2 : Nat) : Nat × Nat :=
  ((b0 <<< 4) ||| (b1 >>> 4), ((b1 &&& 0x0F) <<< 8) ||| b2)

end Sys2Proof.Machine
end

