-- ==== Sys2Proof/Machine/Ops.lean ====
section
/-! DEFINITION. The named operations: writes of the state elements, `Emit`, taking FormatError and leaving it, reset,
and taking the host's next input (spec/00_scope.md rules R9, R10; spec/60_exceptions.md; spec/70_reset_and_hazards.md). -/

namespace Sys2Proof.Machine

/-! ### `X <- v` (R9) -/

/-- `PK.HOLD <- c`. -/
def setHold (c : Code) (s : State) : State := { s with pk := { s.pk with hold := c } }

/-- `PK.FULL <- v`. -/
def setFull (v : Bool) (s : State) : State := { s with pk := { s.pk with full := v } }

/-- `UP.B0 <- b`. -/
def setB0 (b : Byte) (s : State) : State := { s with up := { s.up with b0 := b } }

/-- `UP.B1 <- b`. -/
def setB1 (b : Byte) (s : State) : State := { s with up := { s.up with b1 := b } }

/-- `UP.ERR` and `UP.CNT` written together. -/
def setControl (k : UpControl) (s : State) : State := { s with up := { s.up with ctl := k } }

/-! ### `Emit` (R9) -/

/-- `Emit(PK.OUT, t)`: three bytes, most significant first. -/
def emitTriple (t : OutWord) (s : State) : State :=
  { s with pk := { s.pk with out := s.pk.out ++ wordBytes t } }

/-- `Emit(UP.OUT, p)`: two codes, most significant first. -/
def emitPair (p : OutWord) (s : State) : State :=
  { s with up := { s.up with out := s.up.out ++ wordCodes p } }

/-! ### The exception -/

/-- `raise FormatError(n)` (R93): `UP.ERR <- 1`, with `UP.CNT` standing at n; nothing else is written. -/
def raiseFormatError (n : Leftover) (s : State) : State := setControl (.faulted n) s

/-- Leaving the fault, or abandoning the buffer (R69, R96): `UP.CNT <- 0`, `UP.ERR <- 0`; nothing is restored. -/
def clearUnpacker (s : State) : State := setControl (.running .zero) s

/-! ### Reset -/

/-- Applying `rst` (R105): both units take the state of R24; what the host has still to present stays. The registers
R24 leaves unspecified take their reset values of log 3. -/
def applyReset (s : State) : State := { State.reset with pending := s.pending }

/-! ### Taking the host's next input -/

/-- What a step finds at the block's inputs. -/
inductive Fetched where
  /-- The host has presented nothing. -/
  | idle
  /-- A command word: its instruction, and the state with the word taken from the stream. -/
  | command (i : Instr) (s : State)
  /-- Reset is applied: the state with that input taken, together with any word presented beside it, which is not
  executed (R98, R105). -/
  | reset (s : State)
  deriving DecidableEq, Repr

/-- Take the oldest input the host has presented, in the host's order (R10, R39). -/
def fetch (s : State) : Fetched :=
  match s.pending with
  | [] => .idle
  | .cmd w :: rest => .command (decode w) { s with pending := rest }
  | .rst _ _ :: rest => .reset { s with pending := rest }

end Sys2Proof.Machine
end

