-- ==== Sys2Proof/Machine/Packer.lean ====
section
/-! DEFINITION. The packer's command words (spec/40_packer.md rules R58 to R61). -/

namespace Sys2Proof.Machine

/-- P.NOP (R58): no state element is written and nothing is emitted. -/
def execPNop (s : State) : Host.Outcome State Fault Refusal := .next s

/-- P.PUSH code (R59): keep the first code of a pair; emit the triple with the second. -/
def execPPush (code : Code) (s : State) : Host.Outcome State Fault Refusal :=
  if s.pk.full then
    .next (setFull false (emitTriple (tripleWord s.pk.hold code) s))
  else
    .next (setFull true (setHold code s))

/-- P.END (R60): a held code is emitted as the pair (c, 0). -/
def execPEnd (s : State) : Host.Outcome State Fault Refusal :=
  if s.pk.full then .next (setFull false (emitTriple (paddedWord s.pk.hold) s)) else .next s

/-- P.CLR (R61): `PK.FULL <- 0`; nothing is emitted. -/
def execPClr (s : State) : Host.Outcome State Fault Refusal := .next (setFull false s)

end Sys2Proof.Machine
end

