-- ==== Sys2Proof/Machine/Unpacker.lean ====
section
/-! DEFINITION. The unpacker's command words (spec/41_unpacker.md rules R66 to R69). -/

namespace Sys2Proof.Machine

/-- U.NOP (R66): no state element is written and nothing is emitted. -/
def execUNop (s : State) : Host.Outcome State Fault Refusal := .next s

/-- U.PUSH byte (R67): ignored by the faulted unit (R95); else byte0 or byte1 is kept, and byte2 emits the pair. -/
def execUPush (byte : Byte) (s : State) : Host.Outcome State Fault Refusal :=
  match s.up.ctl with
  | .faulted _ => .next s
  | .running .zero => .next (setControl (.running (nextHeld .zero)) (setB0 byte s))
  | .running .one => .next (setControl (.running (nextHeld .one)) (setB1 byte s))
  | .running .two =>
    .next (setControl (.running (nextHeld .two)) (emitPair (pairWord s.up.b0 s.up.b1 byte) s))

/-- U.END (R68): ignored by the faulted unit (R95); clean with no byte held; else FormatError with the leftover count. -/
def execUEnd (s : State) : Host.Outcome State Fault Refusal :=
  match s.up.ctl with
  | .faulted _ => .next s
  | .running .zero => .next s
  | .running .one => .next (raiseFormatError .one s)
  | .running .two => .next (raiseFormatError .two s)

/-- U.CLR (R69): `UP.CNT <- 0`, `UP.ERR <- 0`; the one command word that acts on the faulted unit (R96). -/
def execUClr (s : State) : Host.Outcome State Fault Refusal := .next (clearUnpacker s)

end Sys2Proof.Machine
end

