-- ==== Sys2Proof/Machine/Dispatch.lean ====
section
/-! DEFINITION. One arm per command word. -/

namespace Sys2Proof.Machine

/-- The meaning of each command word. -/
def exec (i : Instr) (s : State) : Host.Outcome State Fault Refusal :=
  match i with
  -- the packer, spec/40_packer.md
  | .pNop => Sys2Proof.Machine.execPNop s
  | .pPush code => Sys2Proof.Machine.execPPush code s
  | .pEnd => Sys2Proof.Machine.execPEnd s
  | .pClr => Sys2Proof.Machine.execPClr s
  -- the unpacker, spec/41_unpacker.md
  | .uNop => Sys2Proof.Machine.execUNop s
  | .uPush byte => Sys2Proof.Machine.execUPush byte s
  | .uEnd => Sys2Proof.Machine.execUEnd s
  | .uClr => Sys2Proof.Machine.execUClr s

end Sys2Proof.Machine
end

