-- ==== Sys2Proof/Machine/Step.lean ====
section
/-! DEFINITION. One step of the machine (spec/00_scope.md rule R10), and the placing of a command
word where the next step takes it. -/

namespace Sys2Proof.Machine

/-- One step: the unit whose port the host's next word is on executes it; reset, an event between steps, is applied
(R105); with nothing presented no unit steps and nothing changes (log 4). -/
def step (s : State) : Host.Outcome State Fault Refusal :=
  match fetch s with
  | .idle => .next s
  | .command i s' => exec i s'
  | .reset s' => .next (applyReset s')

/-- The state in which the opcode-table word `w` stands first among the host's inputs, so that the next step takes it
(log 8, log 9); unchanged where no port carries such a word. -/
def State.withFetchWord (s : State) (nbits w : Nat) : State :=
  match tableWord nbits w with
  | some cw => { s with pending := .cmd cw :: s.pending }
  | none => s

end Sys2Proof.Machine
end

