-- ==== Sys2Proof/Machine/Script.lean ====
section
/-! DEFINITION. The command-script text of spec/30_encoding.md rule R54: one command word a line, `;` starting a
comment, operands decimal or hexadecimal; and the lines of the pseudo-operations, written as rule R55 writes them. A text
is a list of characters. -/

namespace Sys2Proof.Machine

/-- What stands before a `;` (R54). -/
def beforeComment (cs : List Char) : List Char := cs.takeWhile fun c => c != ';'

/-- A character that is a word by itself: those that R55 writes a list of operands with. -/
def isListMark (c : Char) : Bool := c == '[' || c == ',' || c == ']'

/-- The words of a line, cut at spaces and tabs and around list marks; two cuts in a row give an empty word. -/
def cutAtBlanks : List Char → List (List Char)
  | [] => [[]]
  | c :: cs =>
    if c = ' ' ∨ c = '\t' then [] :: cutAtBlanks cs
    else if isListMark c then [] :: [c] :: cutAtBlanks cs
    else
      match cutAtBlanks cs with
      | [] => [[c]]
      | w :: ws => (c :: w) :: ws

/-- The non-empty words of a line before its comment. -/
def lineWords (cs : List Char) : List (List Char) :=
  (cutAtBlanks (beforeComment cs)).filter fun w => !w.isEmpty

/-- The value of a digit, decimal or hexadecimal. -/
def digitValue (c : Char) : Option Nat :=
  if 48 ≤ c.toNat ∧ c.toNat ≤ 57 then some (c.toNat - 48)
  else if 65 ≤ c.toNat ∧ c.toNat ≤ 70 then some (c.toNat - 55)
  else if 97 ≤ c.toNat ∧ c.toNat ≤ 102 then some (c.toNat - 87)
  else none

/-- The number the digits write in the base, after the value `acc` of the digits before them. -/
def readDigits (base acc : Nat) : List Char → Option Nat
  | [] => some acc
  | c :: cs =>
    match digitValue c with
    | some d => if d < base then readDigits base (acc * base + d) cs else none
    | none => none

/-- An unsigned operand: hexadecimal after `0x`, else decimal (R54). -/
def readUnsigned : List Char → Option Nat
  | [] => none
  | '0' :: 'x' :: c :: cs => readDigits 16 0 (c :: cs)
  | c :: cs => readDigits 10 0 (c :: cs)

/-- An operand as written, with a minus sign or without. R54 gives no signed form and refuses a negative number: a
negative operand is read as the number it writes, and the assembler then refuses it. A minus sign before a zero (`-0`,
`-0x0`) is read as the operand 0, which is no negative number, and the line assembles. DESIGN CHOICE, safe (log 10). -/
def readOperand : List Char → Option Int
  | '-' :: cs =>
    match readUnsigned cs with
    | some n => some (-(n : Int))
    | none => none
  | cs =>
    match readUnsigned cs with
    | some n => some (n : Int)
    | none => none

/-- The operands of a pseudo-operation after its opening bracket, separated by commas and closed by a bracket (R55). -/
def readElements : List (List Char) → Option (List Int)
  | [a, [']']] =>
    match readOperand a with
    | some v => some [v]
    | none => none
  | a :: [','] :: rest =>
    match readOperand a, readElements rest with
    | some v, some vs => some (v :: vs)
    | _, _ => none
  | _ => none

/-- The bracketed operands of a pseudo-operation, none or more (R55). -/
def readList : List (List Char) → Option (List Int)
  | [['['], [']']] => some []
  | ['['] :: rest => readElements rest
  | _ => none

/-- One line of a command script (R54) or a pseudo-operation (R55); none where the text is no such line (log 10). -/
def readLine (cs : List Char) : Option ScriptLine :=
  match lineWords cs with
  | [m] =>
    if m = ['P', '.', 'N', 'O', 'P'] then some .pNop
    else if m = ['P', '.', 'E', 'N', 'D'] then some .pEnd
    else if m = ['P', '.', 'C', 'L', 'R'] then some .pClr
    else if m = ['U', '.', 'N', 'O', 'P'] then some .uNop
    else if m = ['U', '.', 'E', 'N', 'D'] then some .uEnd
    else if m = ['U', '.', 'C', 'L', 'R'] then some .uClr
    else none
  | [m, a] =>
    match readOperand a with
    | some v =>
      if m = ['P', '.', 'P', 'U', 'S', 'H'] then some (.pPush v)
      else if m = ['U', '.', 'P', 'U', 'S', 'H'] then some (.uPush v)
      else none
    | none => none
  | m :: rest =>
    match readList rest with
    | some vs =>
      if m = ['P', '.', 'P', 'A', 'C', 'K'] then some (.pPack vs)
      else if m = ['U', '.', 'U', 'N', 'P', 'A', 'C', 'K'] then some (.uUnpack vs)
      else none
    | none => none
  | [] => none

end Sys2Proof.Machine
end

