-- ==== Sys2Proof/Machine/Run.lean ====
section
/-! DEFINITION. A run of a unit, from its initial condition to the next END word of its port, and what the run's result
is, where it has one (spec/70_reset_and_hazards.md rules R109, R119). -/

namespace Sys2Proof.Machine

/-- The packer's initial condition (R109, R119). -/
abbrev pkInitial (s : State) : Prop := s.pk.full = false

/-- The unpacker's initial condition: `UP.CNT = 0` and `UP.ERR = 0` (R109, R119). -/
abbrev upInitial (s : State) : Prop := s.up.ctl = .running .zero

/-- What one of the host's inputs does to a run it finds going on (R109). -/
inductive RunEvent where
  /-- The run goes on. -/
  | goesOn
  /-- The run ends with this step. -/
  | ends
  /-- The run is cut short. -/
  | cutsShort
  deriving DecidableEq, Repr

/-- What a command word does to a run of the packer: P.END ends it, P.CLR cuts it short, and the unpacker's words are
none of its business (R2, R109). -/
def packerWordEvent : Instr → RunEvent
  | .pEnd => .ends
  | .pClr => .cutsShort
  | .pNop | .pPush _ | .uNop | .uPush _ | .uEnd | .uClr => .goesOn

/-- What a command word does to a run of the unpacker: U.END ends it, whether or not it faults, and U.CLR cuts it
short (R109). -/
def unpackerWordEvent : Instr → RunEvent
  | .uEnd => .ends
  | .uClr => .cutsShort
  | .pNop | .pPush _ | .pEnd | .pClr | .uNop | .uPush _ => .goesOn

/-- What an input does to a run of the packer; reset cuts it short (R109). -/
def packerRunEvent : HostInput → RunEvent
  | .cmd w => packerWordEvent (decode w)
  | .rst _ _ => .cutsShort

/-- What an input does to a run of the unpacker; reset cuts it short (R109). -/
def unpackerRunEvent : HostInput → RunEvent
  | .cmd w => unpackerWordEvent (decode w)
  | .rst _ _ => .cutsShort

/-- Where a run stands after some of the host's inputs (R109). -/
inductive RunStop where
  /-- No END word has come yet; the unit waits, which is no fault. -/
  | goingOn
  /-- A CLR word or reset came before the next END word. -/
  | cutShort
  /-- The next END word's step has been taken, and left this state. -/
  | ended (t : State)
  deriving DecidableEq, Repr

/-- Follow a run from a state over at most the next `n` inputs the host has presented (R109). A step that answered no
next state would leave the run going on; there is no such step (R62, R70). -/
def runStop (event : HostInput → RunEvent) : Nat → State → RunStop
  | 0, _ => .goingOn
  | n + 1, s =>
    match s.pending with
    | [] => .goingOn
    | x :: _ =>
      match event x, step s with
      | .cutsShort, _ => .cutShort
      | .ends, .next t => .ended t
      | .goesOn, .next t => runStop event n t
      | _, _ => .goingOn

/-- What has become of the run that starts in a state. Only the last has a result (R109). -/
inductive RunOutcome (α : Type) where
  /-- No run starts here: the unit is not in its initial condition. -/
  | noRun
  /-- The run has not ended: what has been emitted so far is no result. -/
  | goingOn
  /-- CLR or reset cut the run short: it has no result. -/
  | cutShort
  /-- The run ended with `UP.ERR = 1`, with this leftover count: it has no result, whatever was emitted (R94, R113). -/
  | faulted (left : Nat)
  /-- The run ended, with this result. -/
  | result (out : α)
  deriving DecidableEq, Repr

/-- The run of the packer that starts in a state, over all the host has presented; its result is the bytes appended to
`PK.OUT` during it (R109). -/
def packerRun (s : State) : RunOutcome (List Byte) :=
  if pkInitial s then
    match runStop packerRunEvent s.pending.length s with
    | .goingOn => .goingOn
    | .cutShort => .cutShort
    | .ended t => .result (t.pk.out.drop s.pk.out.length)
  else .noRun

/-- The run of the unpacker that starts in a state, over all the host has presented; its result is the codes appended to
`UP.OUT` during it, unless it ended in the fault (R109). -/
def unpackerRun (s : State) : RunOutcome (List Code) :=
  if upInitial s then
    match runStop unpackerRunEvent s.pending.length s with
    | .goingOn => .goingOn
    | .cutShort => .cutShort
    | .ended t =>
      match t.up.ctl with
      | .running _ => .result (t.up.out.drop s.up.out.length)
      | .faulted left => .faulted (leftoverBits left).toNat
  else .noRun

end Sys2Proof.Machine
end

