-- ==== Sys2Proof/Machine/Sequence.lean ====
section
/-! DEFINITION. The whole-sequence functions `pack` and `unpack`, which are the normative meaning of the block
(spec/42_sequences.md rules R74, R75), and the packed buffer as a bit string (spec/20_memory.md rule R30). -/

namespace Sys2Proof.Machine

/-- `pack` (R74): two codes to three bytes; a lone last code is the pair (c, 0). -/
def pack : List Code → List Byte
  | [] => []
  | [c] => wordBytes (paddedWord c)
  | c1 :: c2 :: rest => wordBytes (tripleWord c1 c2) ++ pack rest

/-- What `unpack` gives: codes, or FormatError with its leftover count (R75). -/
inductive Unpacked where
  | codes (cs : List Code)
  | formatError (left : Nat)
  deriving DecidableEq, Repr

/-- The codes of the complete triples of a buffer, in order; leftover bytes give none (R75, R77). -/
def tripleCodes : List Byte → List Code
  | [] => []
  | [_] => []
  | [_, _] => []
  | b0 :: b1 :: b2 :: rest => wordCodes (pairWord b0 b1 b2) ++ tripleCodes rest

/-- `unpack` (R75): FormatError of the leftover count when the length is not a multiple of 3, else the codes. -/
def unpack (bs : List Byte) : Unpacked :=
  if bs.length % 3 = 0 then .codes (tripleCodes bs) else .formatError (bs.length % 3)

/-- The second form of `pack` (R74), first half: `cs'` is `cs`, or `cs ++ [0]` when the length is odd. -/
def padEven (cs : List Code) : List Code :=
  if cs.length % 2 = 0 then cs else cs ++ [Config.padCode]

/-- The second form of `pack` (R74): the triples of the pairs (`cs'[2k]`, `cs'[2k+1]`) for k = 0, 1, … -/
def packByIndex (cs : List Code) : List Byte :=
  (List.range ((padEven cs).length / 2)).flatMap fun k =>
    wordBytes (tripleWord ((padEven cs).getD (2 * k) 0) ((padEven cs).getD (2 * k + 1) 0))

/-- The bits of a code, most significant first (R30, R84). -/
def codeBits (c : Code) : List Bool := (List.range 12).map fun m => c.getMsbD m

/-- The bits of a byte, most significant first (R30, R84). -/
def byteBits (b : Byte) : List Bool := (List.range 8).map fun k => b.getMsbD k

/-- Bit `n` of a packed buffer: bit `8*j + k` is bit `7-k` of byte j (R30); false beyond the buffer. -/
def bufferBit (bs : List Byte) (n : Nat) : Bool := (bs.getD (n / 8) 0).getMsbD (n % 8)

end Sys2Proof.Machine
end

