-- ==== Sys2Proof/Safety.lean ====
section
/-! DEFINITION. The terms claims about the machine are stated in: several steps, what the host observes, the invariant,
and the codes and bytes that sequences of inputs carry (spec/10_state.md rule R20; spec/70_reset_and_hazards.md rule
R119). -/

namespace Sys2Proof.Machine

/-- `n` steps, ending early at a fault or a refusal. -/
def steps : Nat → State → Host.Outcome State Fault Refusal
  | 0, s => .next s
  | n + 1, s =>
    match step s with
    | .next s' => steps n s'
    | .fault r => .fault r
    | .refused r => .refused r

/-- The state with `xs` standing next among the host's inputs, before those already presented. -/
def State.presenting (s : State) (xs : List HostInput) : State :=
  { s with pending := xs ++ s.pending }

/-! ### What the host sees -/

/-- Everything the host can see of the block: the two output streams, the status words and the fault line
(R13, R17, R18, R19, R26, R99). -/
structure Observation where
  pkOut : List Byte
  upOut : List Code
  pstat : BitVec 1
  ustat : BitVec 3
  upErr : BitVec 1
  deriving DecidableEq, Repr

/-- What the host sees in a state. -/
def observe (s : State) : Observation where
  pkOut := s.pk.out
  upOut := s.up.out
  pstat := Sys2Proof.Machine.pstat s
  ustat := Sys2Proof.Machine.ustat s
  upErr := Sys2Proof.Machine.upErr s

/-- Two packers differ at most in `PK.HOLD`, and in it only while `PK.FULL = 0` (R11, R119). -/
structure Packer.AgreeWhereLive (p q : Packer) : Prop where
  full : q.full = p.full
  out : q.out = p.out
  hold : p.full = true → q.hold = p.hold

/-- Two unpackers differ at most in `UP.B0`, only while `UP.CNT = 0`, and in `UP.B1`, only while `UP.CNT < 2`
(R14, R119). -/
structure Unpacker.AgreeWhereLive (u v : Unpacker) : Prop where
  ctl : v.ctl = u.ctl
  out : v.out = u.out
  b0 : cntOf u ≠ 0#2 → v.b0 = u.b0
  b1 : cntOf u = 2#2 → v.b1 = u.b1

/-- Two states differ at most in data registers that hold nothing (R119). -/
structure AgreeWhereLive (s t : State) : Prop where
  pending : t.pending = s.pending
  pk : s.pk.AgreeWhereLive t.pk
  up : s.up.AgreeWhereLive t.up

/-! ### Invariant -/

/-- What holds of every state reachable from reset (R20 a to d): `UP.CNT` is never 3; a raised error has a leftover
count of 1 or 2; `PK.OUT` is whole triples and `UP.OUT` whole pairs. -/
structure Inv (s : State) : Prop where
  cntLegal : cntOf s.up ≠ 3#2
  errHasLeftover : errOf s.up = true → cntOf s.up = 1#2 ∨ cntOf s.up = 2#2
  pkOutTriples : s.pk.out.length % 3 = 0
  upOutPairs : s.up.out.length % 2 = 0

/-! ### Sequences of inputs -/

/-- The input acts on the packer: a word of its port, or reset (R40, R105). -/
def actsOnPacker : HostInput → Bool
  | .cmd (.pcmd _) => true
  | .cmd (.ucmd _) => false
  | .rst _ _ => true

/-- The input acts on the unpacker: a word of its port, or reset (R40, R105). -/
def actsOnUnpacker : HostInput → Bool
  | .cmd (.pcmd _) => false
  | .cmd (.ucmd _) => true
  | .rst _ _ => true

/-- The input is reset. -/
def isReset : HostInput → Bool
  | .cmd _ => false
  | .rst _ _ => true

/-- The command word only carries a code sequence on: P.PUSH or P.NOP. -/
def wordCarriesCodes : Instr → Bool
  | .pNop | .pPush _ => true
  | .pEnd | .pClr | .uNop | .uPush _ | .uEnd | .uClr => false

/-- The command word only carries a byte buffer on: U.PUSH or U.NOP. -/
def wordCarriesBytes : Instr → Bool
  | .uNop | .uPush _ => true
  | .pNop | .pPush _ | .pEnd | .pClr | .uEnd | .uClr => false

/-- The code a command word pushes, as a sequence of one or none. -/
def wordPushedCodes : Instr → List Code
  | .pPush c => [c]
  | .pNop | .pEnd | .pClr | .uNop | .uPush _ | .uEnd | .uClr => []

/-- The byte a command word pushes, as a sequence of one or none. -/
def wordPushedBytes : Instr → List Byte
  | .uPush b => [b]
  | .pNop | .pPush _ | .pEnd | .pClr | .uNop | .uEnd | .uClr => []

/-- The input is a P.PUSH or a P.NOP. -/
def carriesCodes : HostInput → Bool
  | .cmd w => wordCarriesCodes (decode w)
  | .rst _ _ => false

/-- The input is a U.PUSH or a U.NOP. -/
def carriesBytes : HostInput → Bool
  | .cmd w => wordCarriesBytes (decode w)
  | .rst _ _ => false

/-- The codes pushed by a list of inputs, in order. -/
def pushedCodes : List HostInput → List Code
  | [] => []
  | .cmd w :: xs => wordPushedCodes (decode w) ++ pushedCodes xs
  | .rst _ _ :: xs => pushedCodes xs

/-- The bytes pushed by a list of inputs, in order. -/
def pushedBytes : List HostInput → List Byte
  | [] => []
  | .cmd w :: xs => wordPushedBytes (decode w) ++ pushedBytes xs
  | .rst _ _ :: xs => pushedBytes xs

/-- The code the packer holds, as a sequence of none or one (R12). -/
def heldCodes (p : Packer) : List Code := if p.full then [p.hold] else []

/-- The bytes the unpacker holds, as a sequence of none, one or two (R15). -/
def heldBytes (u : Unpacker) : List Byte :=
  match u.ctl with
  | .running .zero => []
  | .running .one => [u.b0]
  | .running .two => [u.b0, u.b1]
  | .faulted .one => [u.b0]
  | .faulted .two => [u.b0, u.b1]

/-- The command word makes the packer emit: a P.PUSH or a P.END that finds `PK.FULL = 1` (R20 e). -/
def wordMakesPackerEmit (full : Bool) : Instr → Bool
  | .pPush _ | .pEnd => full
  | .pNop | .pClr | .uNop | .uPush _ | .uEnd | .uClr => false

/-- The command word makes the unpacker emit: a U.PUSH that finds `UP.CNT = 2` and `UP.ERR = 0` (R20 f). -/
def wordMakesUnpackerEmit (ctl : UpControl) : Instr → Bool
  | .uPush _ => decide (ctl = .running .two)
  | .pNop | .pPush _ | .pEnd | .pClr | .uNop | .uEnd | .uClr => false

/-- The step the input takes makes the packer emit. -/
def packerEmits (s : State) : HostInput → Bool
  | .cmd w => wordMakesPackerEmit s.pk.full (decode w)
  | .rst _ _ => false

/-- The step the input takes makes the unpacker emit. -/
def unpackerEmits (s : State) : HostInput → Bool
  | .cmd w => wordMakesUnpackerEmit s.up.ctl (decode w)
  | .rst _ _ => false

/-- How many of the next `n` steps find the condition `p` of their state and the input they take. -/
def countSteps (p : State → HostInput → Bool) : Nat → State → Nat
  | 0, _ => 0
  | n + 1, s =>
    (match s.pending with
      | [] => 0
      | x :: _ => if p s x then 1 else 0) +
    (match step s with
      | .next s' => countSteps p n s'
      | _ => 0)

end Sys2Proof.Machine
end

