-- ==== Sys2Proof/Certificates/Slice0/Obligations.lean ====
section
/-! DEFINITION. The statements for the provers, from the numbered rules of spec/. -/

open Sys2Proof Sys2Proof.Machine

/-! A statement about what a word or a step leaves compares states where they are live, `AgreeWhereLive`, and never reads
`PK.HOLD` while `PK.FULL = 0`, `UP.B0` while `UP.CNT = 0` or `UP.B1` while `UP.CNT < 2` (R119): `AgreeWhereLive a t` says
that `t` is `a` but for the values of such registers. -/

/-! ### The step -/

/-- R10, R39: a step takes the oldest word the host presented and is the meaning of the instruction it decodes to, the
word gone from the stream. -/
def Obligations.StepRunsThePresentedWord : Prop :=
  ∀ (s : State) (w : CommandWord) (rest : List HostInput),
    s.pending = .cmd w :: rest → step s = exec (decode w) { s with pending := rest }

/-- The model's choice (log 4): with nothing presented no unit steps. R46 says only that an idle port that reads as
zeros does nothing. -/
def Obligations.IdleStepChangesNothing : Prop :=
  ∀ s : State, s.pending = [] → ∃ t, step s = .next t ∧ AgreeWhereLive s t

/-- R62, R70, R105: whatever the state and whatever the host presents, any number of steps can be taken; no step faults or
is refused. Of the command words and of reset these rules say it; that a step with nothing presented completes too, which
an n beyond the number of presented inputs rests on, is the model's choice of log 4. -/
def Obligations.StepsAlwaysComplete : Prop :=
  ∀ (n : Nat) (s : State), ∃ t, steps n s = .next t ∧ t.pending = s.pending.drop n

/-- R10, R13, R17, R37: a command word is one step of one unit; it appends nothing or exactly one output word, three
bytes on `PK.OUT` or two codes on `UP.OUT`, and removes and changes nothing there. -/
def Obligations.StepAppendsAtMostOneOutputWord : Prop :=
  ∀ (s : State) (w : CommandWord) (rest : List HostInput), s.pending = .cmd w :: rest →
    ∃ t, step s = .next t ∧ t.pending = rest ∧
      (w.port = .pk → s.up.AgreeWhereLive t.up ∧
        (t.pk.out = s.pk.out ∨ ∃ a b c : Byte, t.pk.out = s.pk.out ++ [a, b, c])) ∧
      (w.port = .up → s.pk.AgreeWhereLive t.pk ∧
        (t.up.out = s.up.out ∨ ∃ a b : Code, t.up.out = s.up.out ++ [a, b]))

/-- R24, R105: reset, applied alone or together with words on the ports, puts both units in the state of R24, emits
nothing and executes no word presented with it; the machine's own reset state is such a state. Nothing is said of
`PK.HOLD`, `UP.B0`, `UP.B1`, which the spec leaves unspecified. -/
def Obligations.ResetGivesTheInitialState : Prop :=
  (∀ (s : State) (p : Option PWord) (u : Option UWord) (rest : List HostInput),
    s.pending = .rst p u :: rest →
      ∃ t, step s = .next t ∧ t.pk.full = false ∧ t.pk.out = [] ∧ cntOf t.up = 0#2 ∧
        errOf t.up = false ∧ t.up.out = [] ∧ pstat t = 0#1 ∧ ustat t = 0#3 ∧ upErr t = 0#1 ∧
        t.pending = rest) ∧
  State.reset.pk.full = false ∧ State.reset.pk.out = [] ∧ cntOf State.reset.up = 0#2 ∧
    errOf State.reset.up = false ∧ State.reset.up.out = [] ∧ pstat State.reset = 0#1 ∧
    ustat State.reset = 0#3 ∧ upErr State.reset = 0#1

/-- Log 8, log 9 (the model's choice, no rule of the spec): an opcode-table word placed at the inputs is the very next
instruction that runs. -/
def Obligations.PlacedTableWordRunsNext : Prop :=
  ∀ (s : State) (nbits w : Nat) (i : Instr),
    decodeTableWord nbits w = some i → step (s.withFetchWord nbits w) = exec i s

/-! ### The packer's command words -/

/-- R58: P.NOP, with any ignored field, writes and emits nothing, any number of times. -/
def Obligations.PNopDoesNothing : Prop :=
  (∀ x : BitVec 12, decode (.pcmd (0b00#2 ++ x)) = .pNop) ∧
  (∀ s : State, ∃ t, exec .pNop s = .next t ∧ AgreeWhereLive s t) ∧
  (∀ (s : State) (ws : List CommandWord), (∀ w ∈ ws, decode w = .pNop) →
    ∃ t, steps ws.length (s.presenting (ws.map .cmd)) = .next t ∧ AgreeWhereLive s t)

/-- R59: P.PUSH keeps the first code of a pair and emits the triple with the second. -/
def Obligations.PPushPairsCodes : Prop :=
  (∀ c : Code, decode (.pcmd (0x1000#14 ||| c.setWidth 14)) = .pPush c) ∧
  ∀ (s : State) (c : Code),
    ∃ t, exec (.pPush c) s = .next t ∧ AgreeWhereLive
      (if s.pk.full then
        { s with pk := { s.pk with
            full := false
            out := s.pk.out ++ [s.pk.hold.extractLsb' 4 8,
              s.pk.hold.extractLsb' 0 4 ++ c.extractLsb' 8 4, c.extractLsb' 0 8] } }
      else { s with pk := { s.pk with hold := c, full := true } }) t

/-- R60: P.END emits a held code as the pair (c, 0), and with no code held does nothing. -/
def Obligations.PEndFlushesTheTail : Prop :=
  (∀ x : BitVec 12, decode (.pcmd (0b10#2 ++ x)) = .pEnd) ∧
  ∀ s : State,
    ∃ t, exec .pEnd s = .next t ∧ AgreeWhereLive
      (if s.pk.full then
        { s with pk := { s.pk with
            full := false
            out := s.pk.out ++ [s.pk.hold.extractLsb' 4 8, s.pk.hold.extractLsb' 0 4 ++ 0b0000#4, 0x00#8] } }
      else s) t

/-- R61: P.CLR drops a held code without output; it differs from P.END only when `PK.FULL = 1`. -/
def Obligations.PClrAbandonsTheSequence : Prop :=
  (∀ x : BitVec 12, decode (.pcmd (0b11#2 ++ x)) = .pClr) ∧
  ∀ s : State,
    ∃ t e, exec .pClr s = .next t ∧ exec .pEnd s = .next e ∧
      AgreeWhereLive { s with pk := { s.pk with full := false } } t ∧
      (s.pk.full = false → AgreeWhereLive s t) ∧
      (¬ AgreeWhereLive t e ↔ s.pk.full = true)

/-- R64: the packer's words complete in every state and raise nothing. -/
def Obligations.PackerNeverRaises : Prop :=
  ∀ (i : Instr) (s : State), i.port = .pk →
    ∃ t, exec i s = .next t ∧ errOf t.up = errOf s.up ∧ causeCode t = causeCode s

/-- R58 to R61: what the packer's words leave unchanged: the unpacker where live, the host's inputs, `PK.HOLD` where it
is live after the word (`PK.FULL = 1`, R119) but for a P.PUSH that finds `PK.FULL = 0`, `PK.FULL` for P.NOP, `PK.OUT`
but for a P.PUSH or P.END that finds `PK.FULL = 1`. -/
def Obligations.PackerWordsFrame : Prop :=
  ∀ (i : Instr) (s t : State), i.port = .pk → exec i s = .next t →
    s.up.AgreeWhereLive t.up ∧ t.pending = s.pending ∧
    (t.pk.full = true → ¬ (s.pk.full = false ∧ ∃ c, i = .pPush c) → t.pk.hold = s.pk.hold) ∧
    (i = .pNop → t.pk.full = s.pk.full) ∧
    (¬ (s.pk.full = true ∧ (i = .pEnd ∨ ∃ c, i = .pPush c)) → t.pk.out = s.pk.out)

/-- R12: after P.PUSH and P.NOP words alone, `PK.FULL` is the parity of the codes accepted since the start of the
sequence. -/
def Obligations.FullIsTheParityOfCodes : Prop :=
  ∀ (s : State) (xs : List HostInput), pkInitial s → xs.all carriesCodes = true →
    ∃ t, steps xs.length (s.presenting xs) = .next t ∧
      t.pk.full = decide ((pushedCodes xs).length % 2 = 1)

/-! ### The unpacker's command words -/

/-- R66: U.NOP, with any ignored field, writes and emits nothing, any number of times, faulted or not. -/
def Obligations.UNopDoesNothing : Prop :=
  (∀ x : BitVec 8, decode (.ucmd (0b00#2 ++ x)) = .uNop) ∧
  (∀ s : State, ∃ t, exec .uNop s = .next t ∧ AgreeWhereLive s t) ∧
  (∀ (s : State) (ws : List CommandWord), (∀ w ∈ ws, decode w = .uNop) →
    ∃ t, steps ws.length (s.presenting (ws.map .cmd)) = .next t ∧ AgreeWhereLive s t)

/-- R67: U.PUSH is ignored by the faulted unit; else it keeps byte0, keeps byte1, or emits the pair. -/
def Obligations.UPushAssemblesTriples : Prop :=
  (∀ b : Byte, decode (.ucmd (0x100#10 ||| b.setWidth 10)) = .uPush b) ∧
  ∀ (s : State) (b : Byte),
    ∃ t, exec (.uPush b) s = .next t ∧ AgreeWhereLive
      (if errOf s.up then s
      else if cntOf s.up = 0#2 then
        { s with up := { s.up with b0 := b, ctl := .running .one } }
      else if cntOf s.up = 1#2 then
        { s with up := { s.up with b1 := b, ctl := .running .two } }
      else
        { s with up := { s.up with
            ctl := .running .zero
            out := s.up.out ++ [s.up.b0.extractLsb' 0 8 ++ s.up.b1.extractLsb' 4 4,
              s.up.b1.extractLsb' 0 4 ++ b.extractLsb' 0 8] } }) t

/-- R68: U.END does nothing in the faulted unit or with no byte held; with one or two bytes left over it raises
FormatError, which writes `UP.ERR` alone and emits nothing: exactly when the number of bytes pushed since the start of the
sequence is not a multiple of 3. -/
def Obligations.UEndChecksTheLength : Prop :=
  (∀ x : BitVec 8, decode (.ucmd (0b10#2 ++ x)) = .uEnd) ∧
  ∀ s : State,
    ((errOf s.up = true ∨ cntOf s.up = 0#2) → ∃ t, exec .uEnd s = .next t ∧ AgreeWhereLive s t) ∧
    ((errOf s.up = false ∧ cntOf s.up ≠ 0#2) →
      ∃ t, exec .uEnd s = .next t ∧ errOf t.up = true ∧ cntOf t.up = cntOf s.up ∧
        t.up.b0 = s.up.b0 ∧ (cntOf s.up = 2#2 → t.up.b1 = s.up.b1) ∧ t.up.out = s.up.out ∧
        s.pk.AgreeWhereLive t.pk ∧ t.pending = s.pending) ∧
    (∀ (xs : List HostInput) (w : CommandWord), upInitial s → xs.all carriesBytes = true →
      decode w = .uEnd → ∃ t, steps (xs.length + 1) (s.presenting (xs ++ [.cmd w])) = .next t ∧
        (errOf t.up = true ↔ (pushedBytes xs).length % 3 ≠ 0))

/-- R69: U.CLR clears `UP.CNT` and `UP.ERR`, faulted or not, and nothing else; held bytes are dropped. While
`UP.ERR = 1` no other word of the unpacker does anything and no word of the packer touches the unpacker; a step leaves the
fault only by U.CLR or by reset, and reset does leave it. -/
def Obligations.UClrClearsTheFault : Prop :=
  (∀ x : BitVec 8, decode (.ucmd (0b11#2 ++ x)) = .uClr) ∧
  (∀ s : State,
    (∃ t, exec .uClr s = .next t ∧
      AgreeWhereLive { s with up := { s.up with ctl := .running .zero } } t ∧
      cntOf t.up = 0#2 ∧ errOf t.up = false ∧ ustat t = 0b000#3 ∧ heldBytes t.up = [] ∧
      (upInitial s → AgreeWhereLive s t)) ∧
    (∀ i : Instr, errOf s.up = true → i.port = .up → i ≠ .uClr →
      ∃ t, exec i s = .next t ∧ AgreeWhereLive s t) ∧
    (∀ i : Instr, i.port = .pk → ∃ t, exec i s = .next t ∧ s.up.AgreeWhereLive t.up)) ∧
  (∀ s t : State, errOf s.up = true → step s = .next t → errOf t.up = false →
    (∃ w rest, s.pending = .cmd w :: rest ∧ decode w = .uClr) ∨
    (∃ p u rest, s.pending = .rst p u :: rest)) ∧
  (∀ (s : State) (p : Option PWord) (u : Option UWord),
    ∃ t, step (s.presenting [.rst p u]) = .next t ∧ errOf t.up = false)

/-- R66 to R69: what the unpacker's words leave unchanged: the packer where live, the host's inputs, `UP.B0` and `UP.B1`
where they are live after the word (`UP.CNT` not 0, `UP.CNT = 2`, R119) but for the U.PUSH that keeps a new byte in
them, `UP.CNT` for U.NOP and U.END, `UP.ERR` for U.NOP and U.PUSH, `UP.OUT` but for the U.PUSH of a third byte. -/
def Obligations.UnpackerWordsFrame : Prop :=
  ∀ (i : Instr) (s t : State), i.port = .up → exec i s = .next t →
    s.pk.AgreeWhereLive t.pk ∧ t.pending = s.pending ∧
    (cntOf t.up ≠ 0#2 → ¬ (s.up.ctl = .running .zero ∧ ∃ b, i = .uPush b) → t.up.b0 = s.up.b0) ∧
    (cntOf t.up = 2#2 → ¬ (s.up.ctl = .running .one ∧ ∃ b, i = .uPush b) → t.up.b1 = s.up.b1) ∧
    (i = .uNop ∨ i = .uEnd → cntOf t.up = cntOf s.up) ∧
    (i = .uNop ∨ (∃ b, i = .uPush b) → errOf t.up = errOf s.up) ∧
    (¬ (s.up.ctl = .running .two ∧ ∃ b, i = .uPush b) → t.up.out = s.up.out)

/-- R15: after U.PUSH and U.NOP words alone, `UP.CNT` is the number of bytes accepted since the start of the sequence,
modulo 3. -/
def Obligations.CntIsBytesModuloThree : Prop :=
  ∀ (s : State) (xs : List HostInput), upInitial s → xs.all carriesBytes = true →
    ∃ t, steps xs.length (s.presenting xs) = .next t ∧ errOf t.up = false ∧
      cntOf t.up = BitVec.ofNat 2 ((pushedBytes xs).length % 3)

/-! ### The exception -/

/-- R91: FormatError is raised by U.END and by no other command word, exactly when `UP.ERR = 0` and `UP.CNT` is 1 or 2:
when the number of bytes accepted since the start of the sequence is not a multiple of 3. -/
def Obligations.FormatErrorRaisedExactlyByUEnd : Prop :=
  (∀ (i : Instr) (s : State), ∃ t, exec i s = .next t ∧
    ((errOf s.up = false ∧ errOf t.up = true) ↔
      (i = .uEnd ∧ errOf s.up = false ∧ (cntOf s.up = 1#2 ∨ cntOf s.up = 2#2)))) ∧
  (∀ (s : State) (xs : List HostInput) (w : CommandWord),
    upInitial s → xs.all carriesBytes = true → decode w = .uEnd →
      ∃ t, steps (xs.length + 1) (s.presenting (xs ++ [.cmd w])) = .next t ∧
        (errOf t.up = true ↔ (pushedBytes xs).length % 3 ≠ 0))

/-- R93: taking FormatError(n) writes `UP.ERR` and nothing else; `USTAT` then reads 0b101 or 0b110 and `up_err` is 1. -/
def Obligations.FormatErrorEntry : Prop :=
  ∀ s : State,
    (s.up.ctl = .running .one → ∃ t, exec .uEnd s = .next t ∧
      AgreeWhereLive { s with up := { s.up with ctl := .faulted .one } } t) ∧
    (s.up.ctl = .running .two → ∃ t, exec .uEnd s = .next t ∧
      AgreeWhereLive { s with up := { s.up with ctl := .faulted .two } } t) ∧
    (∀ t, exec .uEnd s = .next t → errOf s.up = false →
      (cntOf s.up = 1#2 → ustat t = 0b101#3 ∧ upErr t = 1#1) ∧
      (cntOf s.up = 2#2 → ustat t = 0b110#3 ∧ upErr t = 1#1))

/-- R95: while `UP.ERR = 1` no unpacker word but U.CLR writes or emits anything, in any number, and every packer word
does to the packer what it does when the unpacker is not faulted. -/
def Obligations.FaultedUnitIsTerminal : Prop :=
  (∀ (s : State) (ws : List CommandWord), errOf s.up = true →
    (∀ w ∈ ws, w.port = .up ∧ decode w ≠ .uClr) →
      ∃ t, steps ws.length (s.presenting (ws.map .cmd)) = .next t ∧ AgreeWhereLive s t) ∧
  (∀ (i : Instr) (s : State) (u : Unpacker), i.port = .pk →
    ∃ t t', exec i s = .next t ∧ exec i { s with up := u } = .next t' ∧ t.pk.AgreeWhereLive t'.pk)

/-- R96: U.CLR or reset leaves the fault with `UP.ERR` and `UP.CNT` 0, and the next U.PUSH starts a new buffer. -/
def Obligations.LeavingTheFault : Prop :=
  ∀ (s : State) (x : HostInput), errOf s.up = true →
    ((∃ w, x = .cmd w ∧ decode w = .uClr) ∨ (∃ p u, x = .rst p u)) →
      ∃ t, step (s.presenting [x]) = .next t ∧ errOf t.up = false ∧ cntOf t.up = 0#2 ∧
        ∀ b : Byte, ∃ t', exec (.uPush b) t = .next t' ∧ t'.up.b0 = b ∧ cntOf t'.up = 1#2 ∧
          errOf t'.up = false ∧ t'.up.out = t.up.out

/-- R99, R16: `up_err` rises only in the step of a U.END that finds bytes left over, and falls only in the step of a
U.CLR or of reset. -/
def Obligations.UpErrLineIsALevel : Prop :=
  ∀ s t : State, step s = .next t →
    (upErr s = 0#1 → upErr t = 1#1 →
      cntOf s.up ≠ 0#2 ∧ ∃ w rest, s.pending = .cmd w :: rest ∧ decode w = .uEnd) ∧
    (upErr s = 1#1 → upErr t = 0#1 →
      (∃ w rest, s.pending = .cmd w :: rest ∧ decode w = .uClr) ∨
      (∃ p u rest, s.pending = .rst p u :: rest))

/-- R18, R19, R90, R99: the status words, the line and the cause code are copies of the registers. -/
def Obligations.StatusIsACopyOfTheRegisters : Prop :=
  ∀ s : State,
    (pstat s).getLsbD 0 = s.pk.full ∧
    (ustat s).getLsbD 2 = errOf s.up ∧ (ustat s).extractLsb' 0 2 = cntOf s.up ∧
    (upErr s).getLsbD 0 = errOf s.up ∧
    (causeCode s = 1 ↔ errOf s.up = true) ∧ (causeCode s = 0 ↔ errOf s.up = false)

/-! ### Invariants -/

/-- R20 a to d, with reset: every step keeps the invariant. -/
def Obligations.StepKeepsInv : Prop :=
  ∀ s t : State, Inv s → step s = .next t → Inv t

/-- R20: the reset state has the invariant. -/
def Obligations.ResetStateHasInv : Prop := Inv State.reset

/-- R20: of every state reached from reset by any sequence of command words: (a) to (d), and (e), (f) the lengths of the
output streams as numbers of emitting steps. -/
def Obligations.ReachableStatesFromReset : Prop :=
  ∀ ws : List CommandWord,
    ∃ t, steps ws.length (State.reset.presenting (ws.map .cmd)) = .next t ∧
      (cntOf t.up = 0#2 ∨ cntOf t.up = 1#2 ∨ cntOf t.up = 2#2) ∧
      (errOf t.up = true → cntOf t.up = 1#2 ∨ cntOf t.up = 2#2) ∧
      t.pk.out.length % 3 = 0 ∧ t.up.out.length % 2 = 0 ∧
      t.pk.out.length =
        3 * countSteps packerEmits ws.length (State.reset.presenting (ws.map .cmd)) ∧
      t.up.out.length =
        2 * countSteps unpackerEmits ws.length (State.reset.presenting (ws.map .cmd))

/-- R20 e, f and R13, R17, from any state: over steps without reset the streams only grow, by three bytes and by two
codes for each emitting step. For n beyond the number of presented inputs the further steps have nothing presented; that
they answer a next state, and emit nothing, is the model's choice of log 4. -/
def Obligations.OutputGrowsByEmittingSteps : Prop :=
  ∀ (n : Nat) (s : State), (∀ x ∈ s.pending.take n, isReset x = false) →
    ∃ t bs cs, steps n s = .next t ∧ t.pk.out = s.pk.out ++ bs ∧ t.up.out = s.up.out ++ cs ∧
      bs.length = 3 * countSteps packerEmits n s ∧ cs.length = 2 * countSteps unpackerEmits n s

/-! ### Encodings -/

/-- R46: decoding the encoded word of an instruction gives it back, at every value of its operand. -/
def Obligations.DecodeEncodeRoundTrip : Prop :=
  ∀ i : Instr, decode (encode i) = i ∧ (encode i).port = i.port

/-- R54: encoding the decoded instruction of a word gives the word back, with a zero operand field where it is
ignored. -/
def Obligations.EncodeOfDecodeIsCanonical : Prop :=
  (∀ w : PWord, encode (decode (.pcmd w)) =
    .pcmd (if w.extractLsb' 12 2 = 0b01#2 then w else w.extractLsb' 12 2 ++ 0#12)) ∧
  (∀ w : UWord, encode (decode (.ucmd w)) =
    .ucmd (if w.extractLsb' 8 2 = 0b01#2 then w else w.extractLsb' 8 2 ++ 0#8))

/-- R56: of the rows of the word's format exactly one matches, and it is the row of the decoded instruction. -/
def Obligations.ExactlyOneOpcodeRowMatches : Prop :=
  ∀ w : CommandWord,
    (opcodeRows.filter fun r => r.fits w).map OpcodeRow.mnemonic = [(decode w).mnemonic]

/-- R53: the operand field of NOP, END and CLR is ignored, that of PUSH is data, and every triple of bytes is the image of
exactly one pair of codes. -/
def Obligations.IgnoredFieldsAndLegalData : Prop :=
  (∀ (op : BitVec 2) (x : BitVec 12), op ≠ 0b01#2 →
    decode (.pcmd (op ++ x)) = decode (.pcmd (op ++ 0#12))) ∧
  (∀ (op : BitVec 2) (x : BitVec 8), op ≠ 0b01#2 →
    decode (.ucmd (op ++ x)) = decode (.ucmd (op ++ 0#8))) ∧
  (∀ x : BitVec 12, decode (.pcmd (0b01#2 ++ x)) = .pPush x) ∧
  (∀ x : BitVec 8, decode (.ucmd (0b01#2 ++ x)) = .uPush x) ∧
  (∀ b0 b1 b2 : Byte, ∃ c1 c2 : Code,
    (byte0Of c1 = b0 ∧ byte1Of c1 c2 = b1 ∧ byte2Of c2 = b2) ∧
    ∀ d1 d2 : Code, byte0Of d1 = b0 ∧ byte1Of d1 d2 = b1 ∧ byte2Of d2 = b2 → d1 = c1 ∧ d2 = c2)

/-- Words written out bit by bit from R46 and 95_test_vectors.md decode to what they stand for. -/
def Obligations.WordsOfTheSpecDecode : Prop :=
  decode (.pcmd 0b00000000000000#14) = .pNop ∧
  decode (.pcmd 0b01000001000001#14) = .pPush 0x041#12 ∧
  decode (.pcmd 0b10111111111111#14) = .pEnd ∧
  decode (.pcmd 0b11000000000000#14) = .pClr ∧
  decode (.ucmd 0b0000000000#10) = .uNop ∧
  decode (.ucmd 0b0110100101#10) = .uPush 0xA5#8 ∧
  decode (.ucmd 0b1000000000#10) = .uEnd ∧
  decode (.ucmd 0b1110100101#10) = .uClr

/-- R54: a PUSH line with an operand in range assembles to the operation over the operand, and one out of range is
refused; the other lines assemble to words with a zero operand field. -/
def Obligations.AssemblerRefusesOutOfRange : Prop :=
  (∀ c : Int, assemble (.pPush c) =
    if 0 ≤ c ∧ c ≤ 4095 then .words [.pcmd (BitVec.ofNat 14 (0x1000 + c.toNat))]
    else .refused .codeOutOfRange) ∧
  (∀ b : Int, assemble (.uPush b) =
    if 0 ≤ b ∧ b ≤ 255 then .words [.ucmd (BitVec.ofNat 10 (0x100 + b.toNat))]
    else .refused .byteOutOfRange) ∧
  assemble .pNop = .words [.pcmd 0x0000#14] ∧ assemble .pEnd = .words [.pcmd 0x2000#14] ∧
  assemble .pClr = .words [.pcmd 0x3000#14] ∧ assemble .uNop = .words [.ucmd 0x000#10] ∧
  assemble .uEnd = .words [.ucmd 0x200#10] ∧ assemble .uClr = .words [.ucmd 0x300#10]

/-- R55: P.PACK is a P.PUSH for each code and one P.END; U.UNPACK is a U.PUSH for each byte and one U.END. -/
def Obligations.PseudoOperationExpansion : Prop :=
  (∀ cs : List Code, assemble (.pPack (cs.map fun c => (c.toNat : Int))) =
    .words (cs.map (fun c => .pcmd (0b01#2 ++ c)) ++ [.pcmd (0b10#2 ++ 0#12)])) ∧
  (∀ bs : List Byte, assemble (.uUnpack (bs.map fun b => (b.toNat : Int))) =
    .words (bs.map (fun b => .ucmd (0b01#2 ++ b)) ++ [.ucmd (0b10#2 ++ 0#8)]))

/-! ### The data encoding -/

/-- R47: the triple of a pair, in the document's arithmetic and bit by bit. -/
def Obligations.PairToTripleLayout : Prop :=
  ∀ c1 c2 : Code,
    ((byte0Of c1).toNat, (byte1Of c1 c2).toNat, (byte2Of c2).toNat)
      = tripleFormula c1.toNat c2.toNat ∧
    (∀ k < 8, (byte0Of c1).getLsbD k = c1.getLsbD (k + 4)) ∧
    (∀ k < 4, (byte1Of c1 c2).getLsbD (k + 4) = c1.getLsbD k) ∧
    (∀ k < 4, (byte1Of c1 c2).getLsbD k = c2.getLsbD (k + 8)) ∧
    (∀ k < 8, (byte2Of c2).getLsbD k = c2.getLsbD k)

/-- R48: the pair of a triple, in the document's arithmetic and in 12 bits, and the two directions are inverse. -/
def Obligations.TripleToPairLayout : Prop :=
  ∀ b0 b1 b2 : Byte,
    ((code1Of b0 b1).toNat, (code2Of b1 b2).toNat) = pairFormula b0.toNat b1.toNat b2.toNat ∧
    code1Of b0 b1 = (b0.setWidth 12 <<< 4) ||| (b1 >>> 4).setWidth 12 ∧
    code2Of b1 b2 = ((b1 &&& 0x0F#8).setWidth 12 <<< 8) ||| b2.setWidth 12 ∧
    (byte0Of (code1Of b0 b1) = b0 ∧ byte1Of (code1Of b0 b1) (code2Of b1 b2) = b1 ∧
      byte2Of (code2Of b1 b2) = b2) ∧
    (∀ c1 c2 : Code, code1Of (byte0Of c1) (byte1Of c1 c2) = c1 ∧
      code2Of (byte1Of c1 c2) (byte2Of c2) = c2)

/-- R49: the triple word and the pair word are the same 24 bits. -/
def Obligations.TripleWordIsPairWord : Prop :=
  (∀ c1 c2 : Code, tripleWord c1 c2 = c1 ++ c2) ∧
  (∀ b0 b1 b2 : Byte, pairWord b0 b1 b2 = b0 ++ b1 ++ b2) ∧
  (∀ c1 c2 : Code, pairWord (byte0Of c1) (byte1Of c1 c2) (byte2Of c2) = tripleWord c1 c2)

/-- R50: the padded triple, what it unpacks to, and that it is the triple of the genuine pair (c, 0). -/
def Obligations.PaddedTriple : Prop :=
  ∀ c : Code,
    pack [c] = [c.extractLsb' 4 8, c.extractLsb' 0 4 ++ 0b0000#4, 0b00000000#8] ∧
    unpack (pack [c]) = .codes [c, 0#12] ∧ pack [c, 0#12] = pack [c]

/-- R51: the full group is the 48-bit word of its four codes cut into six bytes from the most significant end; a tail of
one code costs 3 bytes, a tail of two is an ordinary pair, a tail of three a pair and a padded triple. -/
def Obligations.FullGroup : Prop :=
  ∀ a b c d : Code,
    pack [a, b, c, d] =
      [a.extractLsb' 4 8, a.extractLsb' 0 4 ++ b.extractLsb' 8 4, b.extractLsb' 0 8,
       c.extractLsb' 4 8, c.extractLsb' 0 4 ++ d.extractLsb' 8 4, d.extractLsb' 0 8] ∧
    pack [a, b, c, d] =
      ([40, 32, 24, 16, 8, 0].map fun k => (a ++ b ++ c ++ d).extractLsb' k 8) ∧
    (pack [a]).length = 3 ∧ (pack [a, b]).length = 3 ∧ pack [a, b, c] = pack [a, b] ++ pack [c]

/-! ### The whole-sequence functions -/

/-- R74: the two forms of `pack` agree. -/
def Obligations.PackFormsAgree : Prop :=
  pack [] = [] ∧
  (∀ c : Code, pack [c] = [c.extractLsb' 4 8, c.extractLsb' 0 4 ++ 0b0000#4, 0b00000000#8]) ∧
  (∀ (c1 c2 : Code) (rest : List Code), pack (c1 :: c2 :: rest) =
    [c1.extractLsb' 4 8, c1.extractLsb' 0 4 ++ c2.extractLsb' 8 4, c2.extractLsb' 0 8] ++ pack rest) ∧
  (∀ cs : List Code, pack cs = packByIndex cs)

/-- R75: `unpack` fails with the leftover count, or gives the codes of every triple. -/
def Obligations.UnpackByTriples : Prop :=
  (∀ bs : List Byte, bs.length % 3 ≠ 0 → unpack bs = .formatError (bs.length % 3)) ∧
  unpack [] = .codes [] ∧
  (∀ (b0 b1 b2 : Byte) (rest : List Byte), (b0 :: b1 :: b2 :: rest).length % 3 = 0 →
    ∃ cs, unpack rest = .codes cs ∧
      unpack (b0 :: b1 :: b2 :: rest) =
        .codes ([b0 ++ b1.extractLsb' 4 4, b1.extractLsb' 0 4 ++ b2] ++ cs))

/-- R76: P.PUSH words with P.NOP words anywhere among them, and then P.END, append `pack` of the codes to `PK.OUT`; a
code held from an unended earlier sequence is the first of them. -/
def Obligations.PackerRunIsPack : Prop :=
  (∀ (s : State) (xs : List HostInput) (w : CommandWord),
    xs.all carriesCodes = true → decode w = .pEnd →
      ∃ t, steps (xs.length + 1) (s.presenting (xs ++ [.cmd w])) = .next t ∧
        t.pk.full = false ∧ s.up.AgreeWhereLive t.up ∧ t.pending = s.pending ∧
        (s.pk.full = false → t.pk.out = s.pk.out ++ pack (pushedCodes xs)) ∧
        (s.pk.full = true → t.pk.out = s.pk.out ++ pack (s.pk.hold :: pushedCodes xs))) ∧
  (∀ (s : State) (cs : List Code), s.pk.full = false →
    ∃ t, steps (cs.length + 1)
        (s.presenting ((packExpansion cs).map fun i => .cmd (encode i))) = .next t ∧
      t.pk.full = false ∧ t.pk.out = s.pk.out ++ pack cs)

/-- R77: U.PUSH words with U.NOP words anywhere among them, and then U.END, append `unpack` of the bytes to `UP.OUT`, or
end faulted with the leftover count, the codes of the longest well-formed part appended. -/
def Obligations.UnpackerRunIsUnpack : Prop :=
  (∀ (s : State) (xs : List HostInput) (w : CommandWord),
    upInitial s → xs.all carriesBytes = true → decode w = .uEnd →
      ∃ t, steps (xs.length + 1) (s.presenting (xs ++ [.cmd w])) = .next t ∧
        s.pk.AgreeWhereLive t.pk ∧ t.pending = s.pending ∧
        ((pushedBytes xs).length % 3 = 0 →
          upInitial t ∧ ∃ cs, unpack (pushedBytes xs) = .codes cs ∧ t.up.out = s.up.out ++ cs) ∧
        ((pushedBytes xs).length % 3 ≠ 0 →
          errOf t.up = true ∧ (cntOf t.up).toNat = (pushedBytes xs).length % 3 ∧
          ∃ cs, unpack ((pushedBytes xs).take
              ((pushedBytes xs).length - (pushedBytes xs).length % 3)) = .codes cs ∧
            t.up.out = s.up.out ++ cs)) ∧
  (∀ (s : State) (bs : List Byte), upInitial s → bs.length % 3 = 0 →
    ∃ t cs, steps (bs.length + 1)
        (s.presenting ((unpackExpansion bs).map fun i => .cmd (encode i))) = .next t ∧
      upInitial t ∧ unpack bs = .codes cs ∧ t.up.out = s.up.out ++ cs)

/-- R109: a run goes from the unit's initial condition to the next END word of its port, whatever words of the other
port come among its own. Its result is the bytes or codes appended during it, and is `pack` of the codes pushed or
`unpack` of the bytes pushed; it has that result and no other, and has none when it ends with `UP.ERR = 1`, when CLR or
reset cuts it short, or while no END has come. -/
def Obligations.RunResultsAreTheFunctions : Prop :=
  (∀ (s : State) (xs : List HostInput) (w : CommandWord),
    pkInitial s → (∀ x ∈ xs, packerRunEvent x = .goesOn) → decode w = .pEnd →
      ∃ t, steps (xs.length + 1) (s.presenting (xs ++ [.cmd w])) = .next t ∧
        t.pk.out = s.pk.out ++ pack (pushedCodes xs) ∧
        packerRun (s.presenting (xs ++ [.cmd w])) = .result (pack (pushedCodes xs))) ∧
  (∀ (s : State) (xs : List HostInput) (w : CommandWord),
    upInitial s → (∀ x ∈ xs, unpackerRunEvent x = .goesOn) → decode w = .uEnd →
      ∃ t, steps (xs.length + 1) (s.presenting (xs ++ [.cmd w])) = .next t ∧
        (∀ cs, unpack (pushedBytes xs) = .codes cs →
          errOf t.up = false ∧ t.up.out = s.up.out ++ cs ∧
          unpackerRun (s.presenting (xs ++ [.cmd w])) = .result cs) ∧
        (∀ n, unpack (pushedBytes xs) = .formatError n →
          errOf t.up = true ∧ unpackerRun (s.presenting (xs ++ [.cmd w])) = .faulted n)) ∧
  (∀ (s : State) (out : List Byte), packerRun s = .result out →
    pkInitial s ∧ ∃ xs w rest, s.pending = xs ++ .cmd w :: rest ∧
      (∀ x ∈ xs, packerRunEvent x = .goesOn) ∧ decode w = .pEnd ∧ out = pack (pushedCodes xs)) ∧
  (∀ (s : State) (out : List Code), unpackerRun s = .result out →
    upInitial s ∧ ∃ xs w rest, s.pending = xs ++ .cmd w :: rest ∧
      (∀ x ∈ xs, unpackerRunEvent x = .goesOn) ∧ decode w = .uEnd ∧
      unpack (pushedBytes xs) = .codes out) ∧
  (∀ (s : State) (xs : List HostInput) (x : HostInput),
    (pkInitial s → (∀ y ∈ xs, packerRunEvent y = .goesOn) →
      ((∃ w, x = .cmd w ∧ decode w = .pClr) ∨ ∃ p u, x = .rst p u) →
      packerRun (s.presenting (xs ++ [x])) = .cutShort) ∧
    (upInitial s → (∀ y ∈ xs, unpackerRunEvent y = .goesOn) →
      ((∃ w, x = .cmd w ∧ decode w = .uClr) ∨ ∃ p u, x = .rst p u) →
      unpackerRun (s.presenting (xs ++ [x])) = .cutShort)) ∧
  (∀ s : State,
    (pkInitial s → (∀ x ∈ s.pending, packerRunEvent x = .goesOn) → packerRun s = .goingOn) ∧
    (upInitial s → (∀ x ∈ s.pending, unpackerRunEvent x = .goesOn) → unpackerRun s = .goingOn))

/-- R78: the lengths of `pack` and `unpack`. -/
def Obligations.LengthsOfPackAndUnpack : Prop :=
  (∀ cs : List Code, (pack cs).length = 3 * ((cs.length + 1) / 2)) ∧
  (∀ cs : List Code, (pack cs).length % 3 = 0) ∧
  (∀ cs : List Code, (pack cs).length % 6 = 0 ↔ ((cs.length + 1) / 2) % 2 = 0) ∧
  (∀ bs : List Byte, bs.length % 3 = 0 →
    ∃ cs, unpack bs = .codes cs ∧ cs.length = 2 * bs.length / 3)

/-- R79: the empty sequence and the empty buffer are legal on both units, as functions and as the one word END. -/
def Obligations.EmptySequences : Prop :=
  pack [] = [] ∧ unpack [] = .codes [] ∧
  (∀ s : State, pkInitial s → ∃ t, exec .pEnd s = .next t ∧ AgreeWhereLive s t) ∧
  (∀ s : State, upInitial s → ∃ t, exec .uEnd s = .next t ∧ AgreeWhereLive s t)

/-- R80: unpacking a packed sequence gives it back, with one code 0 more when its length is odd. -/
def Obligations.UnpackAfterPack : Prop :=
  ∀ cs : List Code,
    (cs.length % 2 = 0 → unpack (pack cs) = .codes cs) ∧
    (cs.length % 2 = 1 → unpack (pack cs) = .codes (cs ++ [0#12]))

/-- R81: packing an unpacked buffer gives it back, and every even sequence is the unpacking of exactly one buffer. -/
def Obligations.PackAfterUnpack : Prop :=
  (∀ bs : List Byte, bs.length % 3 = 0 → ∃ cs, unpack bs = .codes cs ∧ pack cs = bs) ∧
  (∀ cs : List Code, cs.length % 2 = 0 →
    unpack (pack cs) = .codes cs ∧ ∀ bs, unpack bs = .codes cs → bs = pack cs)

/-- R82: two different sequences pack to the same bytes exactly when one has odd length and the other is it with a code
0 appended. -/
def Obligations.PackAmbiguity : Prop :=
  ∀ cs ds : List Code,
    (pack cs = pack ds ∧ cs ≠ ds) ↔
      ((cs.length % 2 = 1 ∧ ds = cs ++ [0#12]) ∨ (ds.length % 2 = 1 ∧ cs = ds ++ [0#12]))

/-- R83: concatenation. After an even number of codes packing splits; after an odd number the last code pairs with the
first code of the second sequence on one side and with the virtual zero on the other. -/
def Obligations.ConcatenationOfSequences : Prop :=
  (∀ as bs : List Code, as.length % 2 = 0 → pack (as ++ bs) = pack as ++ pack bs) ∧
  (∀ (as bs : List Code) (a b : Code), as.length % 2 = 0 →
    pack ((as ++ [a]) ++ (b :: bs)) = pack as ++ pack [a, b] ++ pack bs ∧
    pack (as ++ [a]) ++ pack (b :: bs) = pack as ++ pack [a, 0#12] ++ pack (b :: bs)) ∧
  (∀ xs ys : List Byte, xs.length % 3 = 0 → ys.length % 3 = 0 →
    ∃ cs ds, unpack xs = .codes cs ∧ unpack ys = .codes ds ∧ unpack (xs ++ ys) = .codes (cs ++ ds))

/-- R116: a P.END met after an odd number of codes inserts a virtual zero code there, and pairing starts again: the two
stretches, each ended by a P.END, emit the packing of the one sequence with that zero in it, which UP gives back with the
zero in the middle; and as a law of `pack`. -/
def Obligations.EarlyEndInsertsZero : Prop :=
  (∀ (s : State) (xs ys : List HostInput) (v w : CommandWord),
    pkInitial s → xs.all carriesCodes = true → ys.all carriesCodes = true →
    decode v = .pEnd → decode w = .pEnd → (pushedCodes xs).length % 2 = 1 →
      ∃ t cs, steps (xs.length + 1 + (ys.length + 1))
          (s.presenting (xs ++ .cmd v :: (ys ++ [.cmd w]))) = .next t ∧
        t.pk.out = s.pk.out ++ pack (pushedCodes xs ++ 0#12 :: pushedCodes ys) ∧
        unpack (t.pk.out.drop s.pk.out.length) = .codes cs ∧
        cs.take ((pushedCodes xs).length + 1 + (pushedCodes ys).length)
          = pushedCodes xs ++ 0#12 :: pushedCodes ys) ∧
  (∀ cs ds : List Code, cs.length % 2 = 1 → pack cs ++ pack ds = pack (cs ++ 0#12 :: ds))

/-- R84: the packed buffer is the bit string of the codes, most significant bit first, completed by 12 zero bits after an
odd number of codes; unpacking cuts the bit string of the buffer into 12-bit pieces. -/
def Obligations.PackIsTheBitString : Prop :=
  (∀ cs : List Code, (pack cs).flatMap byteBits =
    cs.flatMap codeBits ++ (if cs.length % 2 = 1 then List.replicate 12 false else [])) ∧
  (∀ bs : List Byte, bs.length % 3 = 0 →
    ∃ cs, unpack bs = .codes cs ∧ cs.flatMap codeBits = bs.flatMap byteBits)

/-- R30: code i occupies buffer bits 12 i to 12 i + 11, most significant bit first; after an odd number of codes the last
12 bits are 0; the buffer has 24 bits for every two codes. -/
def Obligations.BufferBitsOfTheCodes : Prop :=
  ∀ cs : List Code,
    (∀ (i m : Nat) (c : Code), cs[i]? = some c → m < 12 →
      bufferBit (pack cs) (12 * i + m) = c.getLsbD (11 - m)) ∧
    (cs.length % 2 = 1 → ∀ m < 12, bufferBit (pack cs) (12 * cs.length + m) = false) ∧
    8 * (pack cs).length = 24 * ((cs.length + 1) / 2)

/-! ### The two units, and what cannot be seen -/

/-- R40: steps of the two units commute, and whatever the interleaving of the two command streams, each unit ends as it
would running alone on its own words: from any state in which that unit is the same where live (R119), whatever the other
unit is. All ends are compared where live. -/
def Obligations.UnitsRunIndependently : Prop :=
  (∀ (i j : Instr) (s s' : State), i.port = .pk → j.port = .up → AgreeWhereLive s s' →
    ∃ a b t t', exec i s = .next a ∧ exec j a = .next t ∧ exec j s' = .next b ∧ exec i b = .next t' ∧
      AgreeWhereLive t t') ∧
  (∀ (s p u : State) (ws : List CommandWord), s.pk.AgreeWhereLive p.pk → s.up.AgreeWhereLive u.up →
    ∃ t tp tu,
      steps ws.length (s.presenting (ws.map .cmd)) = .next t ∧
      steps (ws.filter fun w => w.port = .pk).length
        (p.presenting ((ws.filter fun w => w.port = .pk).map .cmd)) = .next tp ∧
      steps (ws.filter fun w => w.port = .up).length
        (u.presenting ((ws.filter fun w => w.port = .up).map .cmd)) = .next tu ∧
      t.pk.AgreeWhereLive tp.pk ∧ p.up.AgreeWhereLive tp.up ∧
      t.up.AgreeWhereLive tu.up ∧ u.pk.AgreeWhereLive tu.pk)

/-- R40 with resets among the words, in the model's form of reset as an input (log 6): each unit ends as it would on the
inputs that act on it alone, from any state in which that unit is the same where live. The ends too are compared where
live (R119): nothing is said of a data register that holds
nothing, whose value R24 leaves unspecified after a reset. -/
def Obligations.UnitsRunIndependentlyUnderReset : Prop :=
  ∀ (s p u : State) (xs : List HostInput), s.pk.AgreeWhereLive p.pk → s.up.AgreeWhereLive u.up →
    ∃ t tp tu,
    steps xs.length (s.presenting xs) = .next t ∧
    steps (xs.filter actsOnPacker).length (p.presenting (xs.filter actsOnPacker)) = .next tp ∧
    steps (xs.filter actsOnUnpacker).length (u.presenting (xs.filter actsOnUnpacker)) = .next tu ∧
    t.pk.AgreeWhereLive tp.pk ∧ t.up.AgreeWhereLive tu.up

/-- R24, R26: the value of a data register that holds nothing can never reach an output or a status word: two states that
differ in such values alone are seen alike, now and after any number of steps. For more steps than inputs presented, that
the further steps answer a next state is the model's choice of log 4. -/
def Obligations.DeadRegistersAreNeverSeen : Prop :=
  ∀ s t : State, AgreeWhereLive s t →
    observe s = observe t ∧
    ∀ n : Nat, ∃ s' t', steps n s = .next s' ∧ steps n t = .next t' ∧
      AgreeWhereLive s' t' ∧ observe s' = observe t'

/-- R107: reset, CLR and END compared: from every state the CLR words leave the registers as reset does and keep the
output records, P.END does with a held code emitted, and U.END does when no byte is held and the unit is not faulted, and
otherwise ends faulted with the bytes kept. -/
def Obligations.ResetClrAndEndCompared : Prop :=
  ∀ s : State,
    (∃ t, step (s.presenting [.rst none none]) = .next t ∧ pkInitial t ∧ upInitial t ∧
      t.pk.out = [] ∧ t.up.out = []) ∧
    (∃ t, exec .pClr s = .next t ∧ pkInitial t ∧ t.pk.out = s.pk.out ∧
      s.up.AgreeWhereLive t.up) ∧
    (∃ t, exec .uClr s = .next t ∧ upInitial t ∧ t.up.out = s.up.out ∧
      s.pk.AgreeWhereLive t.pk) ∧
    (∃ t, exec .pEnd s = .next t ∧ pkInitial t ∧ s.up.AgreeWhereLive t.up ∧
      t.pk.out = s.pk.out ++ pack (heldCodes s.pk)) ∧
    (∃ t, exec .uEnd s = .next t ∧ t.up.out = s.up.out ∧ s.pk.AgreeWhereLive t.pk ∧
      heldBytes t.up = heldBytes s.up ∧ (upInitial t ↔ upInitial s) ∧
      (errOf t.up = true ↔ ¬ upInitial s))

/-- R76, R77, R80 through both units: packing any codes on PK and pushing the bytes it emitted into UP ends without a
fault, and gives the codes back with one code 0 more when their number is odd. -/
def Obligations.RoundTripThroughBothUnits : Prop :=
  ∀ (s : State) (cs : List Code), pkInitial s → upInitial s →
    ∃ t t' bs, steps (cs.length + 1)
        (s.presenting ((packExpansion cs).map fun i => .cmd (encode i))) = .next t ∧
      packerRun (s.presenting ((packExpansion cs).map fun i => .cmd (encode i))) = .result bs ∧
      steps (bs.length + 1)
        (t.presenting ((unpackExpansion bs).map fun i => .cmd (encode i))) = .next t' ∧
      errOf t'.up = false ∧ t'.up.out = s.up.out ++ padEven cs
end

