-- ==== Sys2Proof/Laws/Agree.lean ====
section
/-! SUPPORT. Agreement where live (spec/70_reset_and_hazards.md rule R119): every packer, unpacker and state agrees with
itself. -/

namespace Sys2Proof.Machine

@[simp, refl] theorem Packer.AgreeWhereLive.refl (p : Packer) : p.AgreeWhereLive p := ⟨rfl, rfl, fun _ => rfl⟩

@[simp, refl] theorem Unpacker.AgreeWhereLive.refl (u : Unpacker) : u.AgreeWhereLive u :=
  ⟨rfl, rfl, fun _ => rfl, fun _ => rfl⟩

@[simp, refl] theorem AgreeWhereLive.refl (s : State) : AgreeWhereLive s s := ⟨rfl, .refl s.pk, .refl s.up⟩

end Sys2Proof.Machine
end

