-- ==== Sys2Proof/Laws/Operands.lean ====
section
/-! SUPPORT. The data encoding and the fields of the command words, bit by bit. -/

namespace Sys2Proof.Machine

/-! ### The four fields a triple is cut from -/

theorem getLsbD_byte0Of (c1 : Code) (k : Nat) :
    (byte0Of c1).getLsbD k = (decide (k < 8) && c1.getLsbD (4 + k)) := by
  simp [byte0Of, BitVec.getLsbD_extractLsb']

theorem getLsbD_byte1Of (c1 c2 : Code) (k : Nat) :
    (byte1Of c1 c2).getLsbD k =
      if k < 4 then c2.getLsbD (8 + k) else (decide (k - 4 < 4) && c1.getLsbD (k - 4)) := by
  simp only [byte1Of, BitVec.getLsbD_append, BitVec.getLsbD_extractLsb', Nat.zero_add]
  split <;> simp_all

theorem getLsbD_byte2Of (c2 : Code) (k : Nat) :
    (byte2Of c2).getLsbD k = (decide (k < 8) && c2.getLsbD k) := by
  simp [byte2Of, BitVec.getLsbD_extractLsb']

theorem getLsbD_code1Of (b0 b1 : Byte) (k : Nat) :
    (code1Of b0 b1).getLsbD k = if k < 4 then b1.getLsbD (4 + k) else b0.getLsbD (k - 4) := by
  simp only [code1Of, BitVec.getLsbD_append, BitVec.getLsbD_extractLsb']
  split <;> simp_all

theorem getLsbD_code2Of (b1 b2 : Byte) (k : Nat) :
    (code2Of b1 b2).getLsbD k =
      if k < 8 then b2.getLsbD k else (decide (k - 8 < 4) && b1.getLsbD (k - 8)) := by
  simp only [code2Of, BitVec.getLsbD_append, BitVec.getLsbD_extractLsb', Nat.zero_add]

/-! ### As numbers -/

/-- Concatenation as a number: the more significant part stands first (R7). -/
theorem toNat_concat {m n : Nat} (a : BitVec m) (b : BitVec n) :
    (a ++ b).toNat = a.toNat * 2 ^ n + b.toNat := by
  rw [BitVec.toNat_append, ← Nat.shiftLeft_add_eq_or_of_lt b.isLt, Nat.shiftLeft_eq]

theorem toNat_byte0Of (c1 : Code) : (byte0Of c1).toNat = c1.toNat / 16 := by
  have := c1.isLt
  simp only [byte0Of, BitVec.extractLsb'_toNat, Nat.shiftRight_eq_div_pow]
  omega

theorem toNat_byte1Of (c1 c2 : Code) :
    (byte1Of c1 c2).toNat = c1.toNat % 16 * 16 + c2.toNat / 256 := by
  have := c2.isLt
  refine (toNat_concat _ _).trans ?_
  simp only [BitVec.extractLsb'_toNat, Nat.shiftRight_eq_div_pow]
  omega

theorem toNat_byte2Of (c2 : Code) : (byte2Of c2).toNat = c2.toNat % 256 := by
  simp [byte2Of, BitVec.extractLsb'_toNat]

theorem toNat_code1Of (b0 b1 : Byte) : (code1Of b0 b1).toNat = b0.toNat * 16 + b1.toNat / 16 := by
  have := b1.isLt
  refine (toNat_concat _ _).trans ?_
  simp only [BitVec.extractLsb'_toNat, Nat.shiftRight_eq_div_pow]
  omega

theorem toNat_code2Of (b1 b2 : Byte) :
    (code2Of b1 b2).toNat = b1.toNat % 16 * 256 + b2.toNat := by
  refine (toNat_concat _ _).trans ?_
  simp [BitVec.extractLsb'_toNat]

/-! ### Cutting a concatenation gives its parts back -/

theorem extract_high {m n : Nat} (a : BitVec m) (b : BitVec n) : (a ++ b).extractLsb' n m = a := by
  ext i hi
  simp only [BitVec.getElem_extractLsb', BitVec.getLsbD_append]
  have : ¬ n + i < n := by omega
  simp [this, BitVec.getLsbD_eq_getElem hi]

theorem extract_low {m n : Nat} (a : BitVec m) (b : BitVec n) : (a ++ b).extractLsb' 0 n = b := by
  ext i hi
  simp [BitVec.getElem_extractLsb', BitVec.getLsbD_append, hi]

theorem append_of_extract {m n : Nat} (w : BitVec (m + n)) :
    w.extractLsb' n m ++ w.extractLsb' 0 n = w := by
  ext i hi
  simp only [BitVec.getElem_append, BitVec.getElem_extractLsb']
  split
  · rename_i h
    simp [BitVec.getLsbD_eq_getElem hi]
  · rename_i h
    have : n + (i - n) = i := by omega
    simp [this, BitVec.getLsbD_eq_getElem hi]

/-- A triple word on the byte stream is byte0, byte1, byte2 (R9, R34). -/
theorem wordBytes_append (a b c : Byte) : wordBytes (a ++ b ++ c) = [a, b, c] := by
  have high : (a ++ b ++ c : OutWord).extractLsb' 16 8 = a := by
    ext i hi
    simp only [BitVec.getElem_extractLsb', BitVec.getLsbD_append]
    have h1 : ¬ 16 + i < 8 := by omega
    have h2 : ¬ 16 + i - 8 < 8 := by omega
    have h3 : 16 + i - 8 - 8 = i := by omega
    simp [h1, h2, h3, hi]
  have middle : (a ++ b ++ c : OutWord).extractLsb' 8 8 = b := by
    ext i hi
    simp only [BitVec.getElem_extractLsb', BitVec.getLsbD_append]
    have h1 : ¬ 8 + i < 8 := by omega
    have h3 : 8 + i - 8 = i := by omega
    simp [h1, h3, hi]
  have low : (a ++ b ++ c : OutWord).extractLsb' 0 8 = c := extract_low (a ++ b) c
  simp only [wordBytes, high, middle, low]

@[simp] theorem wordBytes_tripleWord (c1 c2 : Code) :
    wordBytes (tripleWord c1 c2) = [byte0Of c1, byte1Of c1 c2, byte2Of c2] :=
  wordBytes_append _ _ _

/-- A pair word on the code stream is c1, c2 (R9, R34). -/
@[simp] theorem wordCodes_pairWord (b0 b1 b2 : Byte) :
    wordCodes (pairWord b0 b1 b2) = [code1Of b0 b1, code2Of b1 b2] := by
  simp only [wordCodes, pairWord]
  rw [extract_high, extract_low]

end Sys2Proof.Machine

namespace Sys2Proof

/-! ### The fields of a command word -/

@[simp] theorem pOp_append (op : BitVec 2) (x : BitVec 12) : pOp (op ++ x) = op :=
  Machine.extract_high op x

@[simp] theorem pCode_append (op : BitVec 2) (x : BitVec 12) : pCode (op ++ x) = x :=
  Machine.extract_low op x

@[simp] theorem uOp_append (op : BitVec 2) (x : BitVec 8) : uOp (op ++ x) = op :=
  Machine.extract_high op x

@[simp] theorem uByte_append (op : BitVec 2) (x : BitVec 8) : uByte (op ++ x) = x :=
  Machine.extract_low op x

/-- The four operation codes (R46). -/
theorem op_cases (op : BitVec 2) : op = 0b00#2 ∨ op = 0b01#2 ∨ op = 0b10#2 ∨ op = 0b11#2 := by
  revert op
  decide

/-- The table's mask keeps the operation field of a PCMD word alone (R46). -/
theorem masked_pcmd (op : BitVec 2) (x : BitVec 12) :
    (op ++ x : PWord).toNat &&& 0x3000 = op.toNat * 0x1000 := by
  have h : (op ++ x) &&& (0b11#2 ++ 0#12) = (op &&& 0b11#2) ++ (x &&& 0#12) := BitVec.and_append
  have h := congrArg BitVec.toNat h
  rw [BitVec.toNat_and] at h
  refine Eq.trans h ?_
  rcases op_cases op with rfl | rfl | rfl | rfl <;> simp

/-- The table's mask keeps the operation field of a UCMD word alone (R46). -/
theorem masked_ucmd (op : BitVec 2) (x : BitVec 8) :
    (op ++ x : UWord).toNat &&& 0x300 = op.toNat * 0x100 := by
  have h : (op ++ x) &&& (0b11#2 ++ 0#8) = (op &&& 0b11#2) ++ (x &&& 0#8) := BitVec.and_append
  have h := congrArg BitVec.toNat h
  rw [BitVec.toNat_and] at h
  refine Eq.trans h ?_
  rcases op_cases op with rfl | rfl | rfl | rfl <;> simp

end Sys2Proof
end

