-- ==== Sys2Proof/Laws/State.lean ====
section
/-! SUPPORT. One lemma per field per update of the state, each true by unfolding, so that no later proof unfolds a record
update. -/

namespace Sys2Proof.Machine

/-! ### setHold -/

@[simp] theorem setHold_pk_hold (c : Code) (s : State) : (setHold c s).pk.hold = c := rfl
@[simp] theorem setHold_pk_full (c : Code) (s : State) : (setHold c s).pk.full = s.pk.full := rfl
@[simp] theorem setHold_pk_out (c : Code) (s : State) : (setHold c s).pk.out = s.pk.out := rfl
@[simp] theorem setHold_up_b0 (c : Code) (s : State) : (setHold c s).up.b0 = s.up.b0 := rfl
@[simp] theorem setHold_up_b1 (c : Code) (s : State) : (setHold c s).up.b1 = s.up.b1 := rfl
@[simp] theorem setHold_up_ctl (c : Code) (s : State) : (setHold c s).up.ctl = s.up.ctl := rfl
@[simp] theorem setHold_up_out (c : Code) (s : State) : (setHold c s).up.out = s.up.out := rfl
@[simp] theorem setHold_pending (c : Code) (s : State) : (setHold c s).pending = s.pending := rfl
@[simp] theorem setHold_up (c : Code) (s : State) : (setHold c s).up = s.up := rfl

/-! ### setFull -/

@[simp] theorem setFull_pk_hold (v : Bool) (s : State) : (setFull v s).pk.hold = s.pk.hold := rfl
@[simp] theorem setFull_pk_full (v : Bool) (s : State) : (setFull v s).pk.full = v := rfl
@[simp] theorem setFull_pk_out (v : Bool) (s : State) : (setFull v s).pk.out = s.pk.out := rfl
@[simp] theorem setFull_up_b0 (v : Bool) (s : State) : (setFull v s).up.b0 = s.up.b0 := rfl
@[simp] theorem setFull_up_b1 (v : Bool) (s : State) : (setFull v s).up.b1 = s.up.b1 := rfl
@[simp] theorem setFull_up_ctl (v : Bool) (s : State) : (setFull v s).up.ctl = s.up.ctl := rfl
@[simp] theorem setFull_up_out (v : Bool) (s : State) : (setFull v s).up.out = s.up.out := rfl
@[simp] theorem setFull_pending (v : Bool) (s : State) : (setFull v s).pending = s.pending := rfl
@[simp] theorem setFull_up (v : Bool) (s : State) : (setFull v s).up = s.up := rfl

/-! ### setB0 -/

@[simp] theorem setB0_pk_hold (b : Byte) (s : State) : (setB0 b s).pk.hold = s.pk.hold := rfl
@[simp] theorem setB0_pk_full (b : Byte) (s : State) : (setB0 b s).pk.full = s.pk.full := rfl
@[simp] theorem setB0_pk_out (b : Byte) (s : State) : (setB0 b s).pk.out = s.pk.out := rfl
@[simp] theorem setB0_up_b0 (b : Byte) (s : State) : (setB0 b s).up.b0 = b := rfl
@[simp] theorem setB0_up_b1 (b : Byte) (s : State) : (setB0 b s).up.b1 = s.up.b1 := rfl
@[simp] theorem setB0_up_ctl (b : Byte) (s : State) : (setB0 b s).up.ctl = s.up.ctl := rfl
@[simp] theorem setB0_up_out (b : Byte) (s : State) : (setB0 b s).up.out = s.up.out := rfl
@[simp] theorem setB0_pending (b : Byte) (s : State) : (setB0 b s).pending = s.pending := rfl
@[simp] theorem setB0_pk (b : Byte) (s : State) : (setB0 b s).pk = s.pk := rfl

/-! ### setB1 -/

@[simp] theorem setB1_pk_hold (b : Byte) (s : State) : (setB1 b s).pk.hold = s.pk.hold := rfl
@[simp] theorem setB1_pk_full (b : Byte) (s : State) : (setB1 b s).pk.full = s.pk.full := rfl
@[simp] theorem setB1_pk_out (b : Byte) (s : State) : (setB1 b s).pk.out = s.pk.out := rfl
@[simp] theorem setB1_up_b0 (b : Byte) (s : State) : (setB1 b s).up.b0 = s.up.b0 := rfl
@[simp] theorem setB1_up_b1 (b : Byte) (s : State) : (setB1 b s).up.b1 = b := rfl
@[simp] theorem setB1_up_ctl (b : Byte) (s : State) : (setB1 b s).up.ctl = s.up.ctl := rfl
@[simp] theorem setB1_up_out (b : Byte) (s : State) : (setB1 b s).up.out = s.up.out := rfl
@[simp] theorem setB1_pending (b : Byte) (s : State) : (setB1 b s).pending = s.pending := rfl
@[simp] theorem setB1_pk (b : Byte) (s : State) : (setB1 b s).pk = s.pk := rfl

/-! ### setControl -/

@[simp] theorem setControl_pk_hold (k : UpControl) (s : State) : (setControl k s).pk.hold = s.pk.hold := rfl
@[simp] theorem setControl_pk_full (k : UpControl) (s : State) : (setControl k s).pk.full = s.pk.full := rfl
@[simp] theorem setControl_pk_out (k : UpControl) (s : State) : (setControl k s).pk.out = s.pk.out := rfl
@[simp] theorem setControl_up_b0 (k : UpControl) (s : State) : (setControl k s).up.b0 = s.up.b0 := rfl
@[simp] theorem setControl_up_b1 (k : UpControl) (s : State) : (setControl k s).up.b1 = s.up.b1 := rfl
@[simp] theorem setControl_up_ctl (k : UpControl) (s : State) : (setControl k s).up.ctl = k := rfl
@[simp] theorem setControl_up_out (k : UpControl) (s : State) : (setControl k s).up.out = s.up.out := rfl
@[simp] theorem setControl_pending (k : UpControl) (s : State) : (setControl k s).pending = s.pending := rfl
@[simp] theorem setControl_pk (k : UpControl) (s : State) : (setControl k s).pk = s.pk := rfl

/-! ### emitTriple -/

@[simp] theorem emitTriple_pk_hold (w : OutWord) (s : State) : (emitTriple w s).pk.hold = s.pk.hold := rfl
@[simp] theorem emitTriple_pk_full (w : OutWord) (s : State) : (emitTriple w s).pk.full = s.pk.full := rfl
@[simp] theorem emitTriple_pk_out (w : OutWord) (s : State) : (emitTriple w s).pk.out = s.pk.out ++ wordBytes w := rfl
@[simp] theorem emitTriple_up_b0 (w : OutWord) (s : State) : (emitTriple w s).up.b0 = s.up.b0 := rfl
@[simp] theorem emitTriple_up_b1 (w : OutWord) (s : State) : (emitTriple w s).up.b1 = s.up.b1 := rfl
@[simp] theorem emitTriple_up_ctl (w : OutWord) (s : State) : (emitTriple w s).up.ctl = s.up.ctl := rfl
@[simp] theorem emitTriple_up_out (w : OutWord) (s : State) : (emitTriple w s).up.out = s.up.out := rfl
@[simp] theorem emitTriple_pending (w : OutWord) (s : State) : (emitTriple w s).pending = s.pending := rfl
@[simp] theorem emitTriple_up (w : OutWord) (s : State) : (emitTriple w s).up = s.up := rfl

/-! ### emitPair -/

@[simp] theorem emitPair_pk_hold (w : OutWord) (s : State) : (emitPair w s).pk.hold = s.pk.hold := rfl
@[simp] theorem emitPair_pk_full (w : OutWord) (s : State) : (emitPair w s).pk.full = s.pk.full := rfl
@[simp] theorem emitPair_pk_out (w : OutWord) (s : State) : (emitPair w s).pk.out = s.pk.out := rfl
@[simp] theorem emitPair_up_b0 (w : OutWord) (s : State) : (emitPair w s).up.b0 = s.up.b0 := rfl
@[simp] theorem emitPair_up_b1 (w : OutWord) (s : State) : (emitPair w s).up.b1 = s.up.b1 := rfl
@[simp] theorem emitPair_up_ctl (w : OutWord) (s : State) : (emitPair w s).up.ctl = s.up.ctl := rfl
@[simp] theorem emitPair_up_out (w : OutWord) (s : State) : (emitPair w s).up.out = s.up.out ++ wordCodes w := rfl
@[simp] theorem emitPair_pending (w : OutWord) (s : State) : (emitPair w s).pending = s.pending := rfl
@[simp] theorem emitPair_pk (w : OutWord) (s : State) : (emitPair w s).pk = s.pk := rfl

/-! ### raiseFormatError -/

@[simp] theorem raiseFormatError_pk_hold (n : Leftover) (s : State) : (raiseFormatError n s).pk.hold = s.pk.hold := rfl
@[simp] theorem raiseFormatError_pk_full (n : Leftover) (s : State) : (raiseFormatError n s).pk.full = s.pk.full := rfl
@[simp] theorem raiseFormatError_pk_out (n : Leftover) (s : State) : (raiseFormatError n s).pk.out = s.pk.out := rfl
@[simp] theorem raiseFormatError_up_b0 (n : Leftover) (s : State) : (raiseFormatError n s).up.b0 = s.up.b0 := rfl
@[simp] theorem raiseFormatError_up_b1 (n : Leftover) (s : State) : (raiseFormatError n s).up.b1 = s.up.b1 := rfl
@[simp] theorem raiseFormatError_up_ctl (n : Leftover) (s : State) : (raiseFormatError n s).up.ctl = .faulted n := rfl
@[simp] theorem raiseFormatError_up_out (n : Leftover) (s : State) : (raiseFormatError n s).up.out = s.up.out := rfl
@[simp] theorem raiseFormatError_pending (n : Leftover) (s : State) : (raiseFormatError n s).pending = s.pending := rfl
@[simp] theorem raiseFormatError_pk (n : Leftover) (s : State) : (raiseFormatError n s).pk = s.pk := rfl

/-! ### clearUnpacker -/

@[simp] theorem clearUnpacker_pk_hold (s : State) : (clearUnpacker s).pk.hold = s.pk.hold := rfl
@[simp] theorem clearUnpacker_pk_full (s : State) : (clearUnpacker s).pk.full = s.pk.full := rfl
@[simp] theorem clearUnpacker_pk_out (s : State) : (clearUnpacker s).pk.out = s.pk.out := rfl
@[simp] theorem clearUnpacker_up_b0 (s : State) : (clearUnpacker s).up.b0 = s.up.b0 := rfl
@[simp] theorem clearUnpacker_up_b1 (s : State) : (clearUnpacker s).up.b1 = s.up.b1 := rfl
@[simp] theorem clearUnpacker_up_ctl (s : State) : (clearUnpacker s).up.ctl = .running .zero := rfl
@[simp] theorem clearUnpacker_up_out (s : State) : (clearUnpacker s).up.out = s.up.out := rfl
@[simp] theorem clearUnpacker_pending (s : State) : (clearUnpacker s).pending = s.pending := rfl
@[simp] theorem clearUnpacker_pk (s : State) : (clearUnpacker s).pk = s.pk := rfl

/-! ### applyReset -/

@[simp] theorem applyReset_pk (s : State) : (applyReset s).pk = State.reset.pk := rfl
@[simp] theorem applyReset_up (s : State) : (applyReset s).up = State.reset.up := rfl
@[simp] theorem applyReset_pending (s : State) : (applyReset s).pending = s.pending := rfl

/-! ### The views of UP.CNT and UP.ERR -/

@[simp] theorem cntOf_running (b0 b1 : Byte) (h : Held) (out : List Code) :
    cntOf ⟨b0, b1, .running h, out⟩ = heldBits h := rfl
@[simp] theorem cntOf_faulted (b0 b1 : Byte) (n : Leftover) (out : List Code) :
    cntOf ⟨b0, b1, .faulted n, out⟩ = leftoverBits n := rfl
@[simp] theorem errOf_running (b0 b1 : Byte) (h : Held) (out : List Code) :
    errOf ⟨b0, b1, .running h, out⟩ = false := rfl
@[simp] theorem errOf_faulted (b0 b1 : Byte) (n : Leftover) (out : List Code) :
    errOf ⟨b0, b1, .faulted n, out⟩ = true := rfl

/-- The five control states by the values of `UP.ERR` and `UP.CNT`. -/
theorem ctl_cases (u : Unpacker) :
    (u.ctl = .running .zero ∧ errOf u = false ∧ cntOf u = 0#2) ∨
    (u.ctl = .running .one ∧ errOf u = false ∧ cntOf u = 1#2) ∨
    (u.ctl = .running .two ∧ errOf u = false ∧ cntOf u = 2#2) ∨
    (u.ctl = .faulted .one ∧ errOf u = true ∧ cntOf u = 1#2) ∨
    (u.ctl = .faulted .two ∧ errOf u = true ∧ cntOf u = 2#2) := by
  obtain ⟨b0, b1, ctl, out⟩ := u
  rcases ctl with (_ | _ | _) | (_ | _) <;> simp [heldBits, leftoverBits]

/-- `UP.ERR` and `UP.CNT` together name the control state: nothing is lost by holding them in one value. -/
theorem ctl_ext {u v : Unpacker} (he : errOf u = errOf v) (hc : cntOf u = cntOf v) : u.ctl = v.ctl := by
  rcases ctl_cases u with h | h | h | h | h <;> rcases ctl_cases v with g | g | g | g | g <;>
    simp_all

end Sys2Proof.Machine
end

