-- ==== Sys2Proof/Laws/Exec.lean ====
section
/-! SUPPORT. What each meaning and each shared operation answers, case by case, so that no later proof unfolds one. -/

namespace Sys2Proof.Machine

/-! ### The packer -/

theorem execPPush_of_full {c : Code} {s : State} (h : s.pk.full = true) :
    execPPush c s = .next (setFull false (emitTriple (tripleWord s.pk.hold c) s)) := by
  simp [execPPush, h]

theorem execPPush_of_empty {c : Code} {s : State} (h : s.pk.full = false) :
    execPPush c s = .next (setFull true (setHold c s)) := by
  simp [execPPush, h]

theorem execPEnd_of_full {s : State} (h : s.pk.full = true) :
    execPEnd s = .next (setFull false (emitTriple (paddedWord s.pk.hold) s)) := by
  simp [execPEnd, h]

theorem execPEnd_of_empty {s : State} (h : s.pk.full = false) : execPEnd s = .next s := by
  simp [execPEnd, h]

/-! ### The unpacker -/

theorem execUPush_of_faulted {b : Byte} {s : State} {n : Leftover} (h : s.up.ctl = .faulted n) :
    execUPush b s = .next s := by
  simp [execUPush, h]

theorem execUPush_of_zero {b : Byte} {s : State} (h : s.up.ctl = .running .zero) :
    execUPush b s = .next (setControl (.running .one) (setB0 b s)) := by
  simp [execUPush, h, nextHeld]

theorem execUPush_of_one {b : Byte} {s : State} (h : s.up.ctl = .running .one) :
    execUPush b s = .next (setControl (.running .two) (setB1 b s)) := by
  simp [execUPush, h, nextHeld]

theorem execUPush_of_two {b : Byte} {s : State} (h : s.up.ctl = .running .two) :
    execUPush b s =
      .next (setControl (.running .zero) (emitPair (pairWord s.up.b0 s.up.b1 b) s)) := by
  simp [execUPush, h, nextHeld]

theorem execUEnd_of_faulted {s : State} {n : Leftover} (h : s.up.ctl = .faulted n) :
    execUEnd s = .next s := by
  simp [execUEnd, h]

theorem execUEnd_of_zero {s : State} (h : s.up.ctl = .running .zero) : execUEnd s = .next s := by
  simp [execUEnd, h]

theorem execUEnd_of_one {s : State} (h : s.up.ctl = .running .one) :
    execUEnd s = .next (raiseFormatError .one s) := by
  simp [execUEnd, h]

theorem execUEnd_of_two {s : State} (h : s.up.ctl = .running .two) :
    execUEnd s = .next (raiseFormatError .two s) := by
  simp [execUEnd, h]

/-! ### Fetching -/

/-- Everything a fetch can find. -/
theorem fetch_cases (s : State) :
    (s.pending = [] ∧ fetch s = .idle) ∨
    (∃ w rest, s.pending = .cmd w :: rest ∧
      fetch s = .command (decode w) { s with pending := rest }) ∨
    (∃ p u rest, s.pending = .rst p u :: rest ∧ fetch s = .reset { s with pending := rest }) := by
  obtain ⟨pk, up, pending⟩ := s
  match pending with
  | [] => exact .inl ⟨rfl, rfl⟩
  | .cmd w :: rest => exact .inr (.inl ⟨w, rest, rfl, rfl⟩)
  | .rst p u :: rest => exact .inr (.inr ⟨p, u, rest, rfl, rfl⟩)

end Sys2Proof.Machine
end

