-- ==== Sys2Proof/Laws/PerInstr.lean ====
section
/-! SUPPORT. A family of statements about each command word as syntax: its encoded word fits the row of
spec/opcode_table.json that carries its mnemonic, and no other row (R46, R56). -/

namespace Sys2Proof.Laws.EncodedWordFitsItsRow

/-- The rows the encoded word fits are the one row of the instruction's mnemonic. -/
def Statement (i : Instr) : Prop :=
  (opcodeRows.filter fun r => r.fits (encode i)).map OpcodeRow.mnemonic = [i.mnemonic]

theorem pNop : Statement .pNop := by unfold Statement; decide
theorem pPush (code : Code) : Statement (.pPush code) := by
  have h := masked_pcmd 0b01#2 code
  simp [Statement, opcodeRows, OpcodeRow.fits, encode, CommandWord.port, CommandWord.value,
    Instr.mnemonic, h]
theorem pEnd : Statement .pEnd := by unfold Statement; decide
theorem pClr : Statement .pClr := by unfold Statement; decide
theorem uNop : Statement .uNop := by unfold Statement; decide
theorem uPush (byte : Byte) : Statement (.uPush byte) := by
  have h := masked_ucmd 0b01#2 byte
  simp [Statement, opcodeRows, OpcodeRow.fits, encode, CommandWord.port, CommandWord.value,
    Instr.mnemonic, h]
theorem uEnd : Statement .uEnd := by unfold Statement; decide
theorem uClr : Statement .uClr := by unfold Statement; decide

end Sys2Proof.Laws.EncodedWordFitsItsRow
end

