-- ==== Sys2Proof/Laws/Run.lean ====
section
/-! SUPPORT. What following a run can find (spec/70_reset_and_hazards.md rule R109), so that no later proof unfolds
`runStop`. -/

namespace Sys2Proof.Machine

/-- Every command word answers a next state, and leaves the host's inputs alone. -/
theorem exec_next (i : Instr) (s : State) : ∃ t, exec i s = .next t ∧ t.pending = s.pending := by
  obtain ⟨⟨hold, full, pkOut⟩, ⟨b0, b1, ctl, upOut⟩, pending⟩ := s
  cases i <;> cases full <;> rcases ctl with (_ | _ | _) | (_ | _) <;> exact ⟨_, rfl, rfl⟩

/-- A step with an input presented takes it. -/
theorem step_takes {s : State} {x : HostInput} {rest : List HostInput} (h : s.pending = x :: rest) :
    ∃ t, step s = .next t ∧ t.pending = rest := by
  cases x with
  | cmd w => simpa [step, fetch, h] using exec_next (decode w) { s with pending := rest }
  | rst p u => exact ⟨applyReset { s with pending := rest }, by simp [step, fetch, h], rfl⟩

/-- Everything that following a run over all of the host's inputs can find: each input lets it go on, or the first that
does not cuts it short, or that one ends it in the state its step leaves. -/
theorem runStop_cases (event : HostInput → RunEvent) (s : State) :
    ((∀ x ∈ s.pending, event x = .goesOn) ∧ runStop event s.pending.length s = .goingOn) ∨
    ∃ xs x rest, s.pending = xs ++ x :: rest ∧ (∀ y ∈ xs, event y = .goesOn) ∧
      ((event x = .cutsShort ∧ runStop event s.pending.length s = .cutShort) ∨
       (event x = .ends ∧ ∃ t, steps (xs.length + 1) s = .next t ∧
          runStop event s.pending.length s = .ended t)) := by
  generalize hp : s.pending = inputs
  induction inputs generalizing s with
  | nil => exact .inl ⟨by simp, rfl⟩
  | cons x rest ih =>
    obtain ⟨t, ht, htp⟩ := step_takes hp
    cases hx : event x with
    | ends => exact .inr ⟨[], x, rest, rfl, by simp, .inr ⟨hx, t, by simp [steps, ht], by simp [runStop, hp, hx, ht]⟩⟩
    | cutsShort => exact .inr ⟨[], x, rest, rfl, by simp, .inl ⟨hx, by simp [runStop, hp, hx]⟩⟩
    | goesOn =>
      have hr : runStop event (x :: rest).length s = runStop event rest.length t := by
        simp [runStop, hp, hx, ht]
      rw [hr]
      obtain ⟨hall, hgo⟩ | ⟨xs, y, tail, rfl, hall, hstop⟩ := ih t htp
      · exact .inl ⟨by simpa [hx] using hall, hgo⟩
      · refine .inr ⟨x :: xs, y, tail, rfl, by simpa [hx] using hall, ?_⟩
        simpa [steps, ht] using hstop

end Sys2Proof.Machine
end

