-- ==== Sys2Proof/Tests/Slice0.lean ====
section
/-! SUPPORT. The model's own tests: decoding, single steps, the functions, and a witness for the hypotheses of each
statement. Expected values are those of spec/95_test_vectors.md (V, S, P numbers) or are worked out by hand from the rule
named. -/

namespace Sys2Proof.Tests

open Sys2Proof Sys2Proof.Machine

/-! ### Small states -/

/-- The reset state with the packer's registers set. -/
def withPacker (full : Bool) (hold : Code) : State :=
  { State.reset with pk := { hold := hold, full := full, out := [] } }

/-- The reset state with the unpacker's registers set. -/
def withUnpacker (ctl : UpControl) (b0 b1 : Byte) : State :=
  { State.reset with up := { b0 := b0, b1 := b1, ctl := ctl, out := [] } }

/-- The next state of an outcome, as data. -/
def nextOf (o : Host.Outcome State Fault Refusal) : Option State :=
  match o with
  | .next s => some s
  | .fault _ => none
  | .refused _ => none

/-- The next state of a command word's meaning. -/
def after (i : Instr) (s : State) : Option State := nextOf (exec i s)

/-! ### WellFormed refuses (R54) -/

theorem test_wf_code_above_range : (ScriptLine.pPush 4096).wellFormed = false := by decide
theorem test_wf_code_negative : (ScriptLine.pPush (-1)).wellFormed = false := by decide
theorem test_wf_byte_above_range : (ScriptLine.uPush 256).wellFormed = false := by decide
theorem test_wf_byte_negative : (ScriptLine.uPush (-1)).wellFormed = false := by decide
theorem test_wf_pack_list : (ScriptLine.pPack [65, 4096]).wellFormed = false := by decide
theorem test_wf_unpack_list : (ScriptLine.uUnpack [255, 256]).wellFormed = false := by decide
theorem test_wf_edges : (ScriptLine.pPush 4095).wellFormed = true ∧
    (ScriptLine.uPush 255).wellFormed = true := by decide

/-! ### Decoding: words written out from R46, 95_test_vectors.md section 2.6 -/

theorem test_decode_pNop_ignored : decode (.pcmd 0b00101010111100#14) = .pNop := by decide
theorem test_decode_pPush : decode (.pcmd 0b01000001000001#14) = .pPush 0x041#12 := by decide
theorem test_decode_pPush_all_ones : decode (.pcmd 0b01111111111111#14) = .pPush 0xFFF#12 := by decide
theorem test_decode_pEnd_ignored : decode (.pcmd 0b10111111111111#14) = .pEnd := by decide
theorem test_decode_pClr : decode (.pcmd 0b11000000000000#14) = .pClr := by decide
theorem test_decode_uNop_ignored : decode (.ucmd 0b0011111111#10) = .uNop := by decide
theorem test_decode_uPush : decode (.ucmd 0b0110100101#10) = .uPush 0xA5#8 := by decide
theorem test_decode_uEnd : decode (.ucmd 0b1000000000#10) = .uEnd := by decide
theorem test_decode_uClr_ignored : decode (.ucmd 0b1110100101#10) = .uClr := by decide
theorem test_encode_words : encode (.pPush 0x041#12) = .pcmd 0x1041#14 ∧ encode .pEnd = .pcmd 0x2000#14 ∧
    encode (.uPush 0xFF#8) = .ucmd 0x1FF#10 ∧ encode .uClr = .ucmd 0x300#10 := by decide

/-- A PCMD row's number in 14 bits, and in whole bytes where it needs more than 10 bits (log 9). -/
theorem test_table_word_pcmd : decodeTableWord 14 0x0000 = some .pNop ∧
    decodeTableWord 16 0x1041 = some (.pPush 0x041#12) ∧ decodeTableWord 14 0x4000 = none := by decide
/-- A UCMD row's number in 10 bits, and in whole bytes (log 9). -/
theorem test_table_word_ucmd : decodeTableWord 10 0x000 = some .uNop ∧
    decodeTableWord 16 0x104 = some (.uPush 0x04#8) ∧ decodeTableWord 10 0x400 = none := by decide
/-- The placed word is the first that runs after reset, and is gone after it. -/
theorem test_placed_word_runs_first :
    (nextOf (step (State.reset.withFetchWord 14 0x1041))).map (fun t => (t.pk.hold, t.pk.full, t.pending))
      = some (0x041#12, true, []) := by decide

/-! ### Script text (R54) -/

theorem test_readLine_hex : readLine ['P', '.', 'P', 'U', 'S', 'H', ' ', '0', 'x', '0', '4', '1', ' ', ';', 'c']
    = some (.pPush 65) := by decide
theorem test_readLine_decimal : readLine [' ', 'U', '.', 'P', 'U', 'S', 'H', ' ', ' ', '2', '5', '5']
    = some (.uPush 255) := by decide
theorem test_readLine_negative_refused :
    (readLine ['P', '.', 'P', 'U', 'S', 'H', ' ', '-', '1']).map assemble
      = some (.refused .codeOutOfRange) := by decide
/-- The model's choice (log 10): a minus sign before a zero writes no negative number. -/
theorem test_readLine_minus_zero :
    (readLine ['U', '.', 'P', 'U', 'S', 'H', ' ', '-', '0', 'x', '0']).map assemble
      = some (.words [.ucmd 0x100#10]) := by decide
theorem test_readLine_end : readLine ['U', '.', 'E', 'N', 'D'] = some .uEnd := by decide
/-- R55, with two codes, and with none: the one word P.END. -/
theorem test_readLine_pPack :
    (readLine ['P', '.', 'P', 'A', 'C', 'K', ' ', '[', '6', '5', ',', ' ', '0', 'x', '4', '2', ']']).map assemble
      = some (.words [.pcmd 0x1041#14, .pcmd 0x1042#14, .pcmd 0x2000#14]) ∧
    (readLine ['P', '.', 'P', 'A', 'C', 'K', ' ', '[', ']']).map assemble = some (.words [.pcmd 0x2000#14]) := by decide
theorem test_readLine_uUnpack :
    readLine ['U', '.', 'U', 'N', 'P', 'A', 'C', 'K', ' ', '[', '4', ']'] = some (.uUnpack [4]) ∧
    readLine ['U', '.', 'U', 'N', 'P', 'A', 'C', 'K', ' ', '[', '4', ' ', '5', ']'] = none := by decide
theorem test_readLine_unreadable : readLine ['P', '.', 'N', 'O', 'P', ' ', '1'] = none := by decide

/-! ### Single steps, 95_test_vectors.md section 2.5 -/

/-- V40. -/
theorem test_pNop_keeps_held : after .pNop (withPacker true 0x041) = some (withPacker true 0x041) := by decide
/-- V37. -/
theorem test_pPush_first : (after (.pPush 0x041) State.reset).map (fun t => (t.pk.full, t.pk.hold, t.pk.out))
    = some (true, 0x041#12, []) := by decide
/-- V41. -/
theorem test_pPush_second : (after (.pPush 0x042) (withPacker true 0x041)).map (fun t => (t.pk.full, t.pk.out))
    = some (false, [0x04#8, 0x10#8, 0x42#8]) := by decide
/-- V42. -/
theorem test_pEnd_flushes : (after .pEnd (withPacker true 0x041)).map (fun t => (t.pk.full, t.pk.out))
    = some (false, [0x04#8, 0x10#8, 0x00#8]) := by decide
/-- V38. -/
theorem test_pEnd_empty : (after .pEnd State.reset).map (fun t => (t.pk.full, t.pk.out)) = some (false, []) := by decide
/-- V43. -/
theorem test_pClr_drops : (after .pClr (withPacker true 0x041)).map (fun t => (t.pk.full, t.pk.out))
    = some (false, []) := by decide
/-- V55. -/
theorem test_uNop_keeps_held : after .uNop (withUnpacker (.running .two) 0x04 0x10)
    = some (withUnpacker (.running .two) 0x04 0x10) := by decide
/-- V53. -/
theorem test_uPush_third : (after (.uPush 0x42) (withUnpacker (.running .two) 0x04 0x10)).map
    (fun t => (ustat t, t.up.out)) = some (0b000#3, [0x041#12, 0x042#12]) := by decide
/-- V56. -/
theorem test_uPush_faulted : after (.uPush 0x42) (withUnpacker (.faulted .two) 0x04 0x10)
    = some (withUnpacker (.faulted .two) 0x04 0x10) := by decide
/-- V51. -/
theorem test_uEnd_one_left : (after .uEnd (withUnpacker (.running .one) 0x04 0x00)).map
    (fun t => (ustat t, upErr t, causeCode t, t.up.b0, t.up.out)) = some (0b101#3, 1#1, 1, 0x04#8, []) := by decide
/-- V54. -/
theorem test_uEnd_two_left : (after .uEnd (withUnpacker (.running .two) 0x04 0x10)).map
    (fun t => (ustat t, t.up.b0, t.up.b1)) = some (0b110#3, 0x04#8, 0x10#8) := by decide
/-- V58. -/
theorem test_uClr_leaves_fault : (after .uClr (withUnpacker (.faulted .two) 0x04 0x10)).map
    (fun t => (ustat t, upErr t, t.up.out)) = some (0b000#3, 0#1, []) := by decide
/-- R98, R105: reset beats the word presented with it. -/
theorem test_reset_beats_word :
    (nextOf (step ((withPacker true 0x041).presenting [.rst (some 0x1042#14) none]))).map
      (fun t => (t.pk.full, t.pk.out, t.pending)) = some (false, [], []) := by decide

/-! ### The functions, 95_test_vectors.md sections 1, 2 and 4 -/

/-- V1, and section 4: not a least-significant-first layout. -/
theorem test_pack_nibbles : pack [0xABC, 0xDEF] = [0xAB#8, 0xCD#8, 0xEF#8] := by decide
/-- S2. -/
theorem test_pack_document : pack [65, 66, 256, 258] = [0x04#8, 0x10#8, 0x42#8, 0x10#8, 0x01#8, 0x02#8] := by decide
/-- V18. -/
theorem test_pack_three : pack [0x123, 0x456, 0x789] = [0x12#8, 0x34#8, 0x56#8, 0x78#8, 0x90#8, 0x00#8] := by decide
/-- V5. -/
theorem test_pack_single_bits : pack [0x001, 0x800] = [0x00#8, 0x18#8, 0x00#8] := by decide
/-- V25. -/
theorem test_unpack_bytes : unpack [0xDE, 0xAD, 0xBE, 0xEF, 0x00, 0x01]
    = .codes [0xDEA#12, 0xDBE#12, 0xEF0#12, 0x001#12] := by decide
/-- V27, and section 4: the shift is done at 12 bits. -/
theorem test_unpack_wide_shift : unpack [0xF0, 0x0F, 0x00] = .codes [0xF00#12, 0xF00#12] := by decide
/-- V33. -/
theorem test_unpack_malformed : unpack [0x04, 0x10, 0x42, 0x10] = .formatError 1 := by decide
/-- R47 against its integer form, V1. -/
theorem test_triple_formula : tripleFormula 0xABC 0xDEF = (0xAB, 0xCD, 0xEF) := by decide

/-! ### Runs (R109) -/

/-- A run of PK with a word of the other port and an idle word among its own, of section 2's codes 0x041 and 0x042. -/
def pairRun : List HostInput :=
  [.cmd (.pcmd 0x1041#14), .cmd (.ucmd 0x104#10), .cmd (.pcmd 0x0000#14), .cmd (.pcmd 0x1042#14)]

/-- The result is the triple of V41; it stands though P.CLR follows the P.END. -/
theorem test_packer_run_result : packerRun (State.reset.presenting
    (pairRun ++ [.cmd (.pcmd 0x2000#14), .cmd (.pcmd 0x3000#14)])) = .result [0x04#8, 0x10#8, 0x42#8] := by decide
/-- No END word: no result, though the triple is out; and none once P.CLR or reset has come. -/
theorem test_packer_run_no_result :
    packerRun (State.reset.presenting pairRun) = .goingOn ∧
    packerRun (State.reset.presenting (pairRun ++ [.cmd (.pcmd 0x3000#14), .cmd (.pcmd 0x2000#14)])) = .cutShort ∧
    packerRun (State.reset.presenting (pairRun ++ [.rst none none, .cmd (.pcmd 0x2000#14)])) = .cutShort ∧
    packerRun ((withPacker true 0x041).presenting [.cmd (.pcmd 0x2000#14)]) = .noRun := by decide
/-- V53's pair; and a faulted end has no result though the pair is out. -/
theorem test_unpacker_run :
    unpackerRun (State.reset.presenting [.cmd (.ucmd 0x104#10), .cmd (.pcmd 0x2000#14), .cmd (.ucmd 0x110#10),
      .cmd (.ucmd 0x142#10), .cmd (.ucmd 0x200#10)]) = .result [0x041#12, 0x042#12] ∧
    unpackerRun (State.reset.presenting [.cmd (.ucmd 0x104#10), .cmd (.ucmd 0x110#10), .cmd (.ucmd 0x142#10),
      .cmd (.ucmd 0x110#10), .cmd (.ucmd 0x200#10)]) = .faulted 1 ∧
    unpackerRun (State.reset.presenting [.cmd (.ucmd 0x104#10), .cmd (.ucmd 0x300#10), .cmd (.ucmd 0x200#10)])
      = .cutShort ∧
    unpackerRun ((withUnpacker (.faulted .one) 0x04 0).presenting [.cmd (.ucmd 0x200#10)]) = .noRun := by decide

/-! ### Witnesses: states and operands that meet the hypotheses of the statements -/

/-- A packer word, an unpacker word and reset, each standing first (StepRunsThePresentedWord,
StepAppendsAtMostOneOutputWord, ResetGivesTheInitialState; IdleStepChangesNothing: reset has nothing presented). -/
theorem witness_pending :
    (State.reset.presenting [.cmd (.pcmd 0x1041#14)]).pending = .cmd (.pcmd 0x1041#14) :: [] ∧
    (CommandWord.pcmd 0x1041#14).port = .pk ∧
    (State.reset.presenting [.cmd (.ucmd 0x104#10)]).pending = .cmd (.ucmd 0x104#10) :: [] ∧
    (CommandWord.ucmd 0x104#10).port = .up ∧
    (State.reset.presenting [.rst none (some 0x104#10)]).pending = .rst none (some 0x104#10) :: [] ∧
    State.reset.pending = [] := by decide

/-- PlacedTableWordRunsNext. -/
theorem witness_tableWord : decodeTableWord 14 0x1041 = some (.pPush 0x041#12) := by decide

/-- PNopDoesNothing and UNopDoesNothing: words with zero and non-zero ignored fields. -/
theorem witness_nops :
    (∀ w ∈ [CommandWord.pcmd 0x0000#14, .pcmd 0x0FFF#14], decode w = .pNop) ∧
    (∀ w ∈ [CommandWord.ucmd 0x000#10, .ucmd 0x0FF#10], decode w = .uNop) := by decide

/-- PClrAbandonsTheSequence: a state with no code held, and one with a code held. -/
theorem witness_full : (withPacker false 0x000).pk.full = false ∧ (withPacker true 0xFFF).pk.full = true := by
  decide

/-- PackerNeverRaises, PackerWordsFrame, UnitsRunIndependently: words of the packer's port; the two clauses of the frame
that exclude a P.PUSH have states and words on either side, and P.NOP leaves a held code live. -/
theorem witness_packer_word : Instr.port (.pPush 0x041) = .pk ∧ Instr.port .pEnd = .pk ∧
    (after .pNop (withPacker true 0x041)).map (fun t => t.pk.full) = some true ∧
    after .pEnd (withPacker true 0x041) ≠ none ∧ after (.pPush 0x041) (withPacker false 0x000) ≠ none := by decide

/-- UnpackerWordsFrame, UnitsRunIndependently: words of the unpacker's port in each control state that a clause names. -/
theorem witness_unpacker_word : Instr.port (.uPush 0x04) = .up ∧ Instr.port .uEnd = .up ∧
    after (.uPush 0x04) (withUnpacker (.running .zero) 0 0) ≠ none ∧
    after (.uPush 0x04) (withUnpacker (.running .one) 0 0) ≠ none ∧
    after (.uPush 0x04) (withUnpacker (.running .two) 0 0) ≠ none ∧
    (after .uEnd (withUnpacker (.running .two) 0 0)).map (fun t => cntOf t.up) = some 2#2 ∧
    after .uNop (withUnpacker (.faulted .one) 0 0) ≠ none := by decide

/-- FullIsTheParityOfCodes, PackerRunIsPack, EmptySequences, RoundTripThroughBothUnits, EarlyEndInsertsZero (three codes,
an odd number, then P.END): the initial condition, inputs that carry three codes with a P.NOP among them, and the P.END that ends them, with a non-zero
ignored field. -/
theorem witness_packer_run : pkInitial State.reset ∧ State.reset.pk.full = false ∧
    (withPacker true 0x041).pk.full = true ∧
    [HostInput.cmd (.pcmd 0x1123#14), .cmd (.pcmd 0x0ABC#14), .cmd (.pcmd 0x1456#14),
      .cmd (.pcmd 0x1789#14)].all carriesCodes = true ∧
    pushedCodes [HostInput.cmd (.pcmd 0x1123#14), .cmd (.pcmd 0x0ABC#14), .cmd (.pcmd 0x1456#14),
      .cmd (.pcmd 0x1789#14)] = [0x123#12, 0x456#12, 0x789#12] ∧
    decode (.pcmd 0x2ABC#14) = .pEnd := by
  decide

/-- CntIsBytesModuloThree, FormatErrorRaisedExactlyByUEnd, UEndChecksTheLength, UClrClearsTheFault, UnpackerRunIsUnpack,
EmptySequences, RoundTripThroughBothUnits: the initial condition, inputs that carry four bytes
(not a multiple of 3) or three with a U.NOP among them, and the U.END that ends them. -/
theorem witness_unpacker_run : upInitial State.reset ∧
    [HostInput.cmd (.ucmd 0x104#10), .cmd (.ucmd 0x110#10), .cmd (.ucmd 0x142#10),
      .cmd (.ucmd 0x110#10)].all carriesBytes = true ∧
    (pushedBytes [HostInput.cmd (.ucmd 0x104#10), .cmd (.ucmd 0x110#10), .cmd (.ucmd 0x142#10),
      .cmd (.ucmd 0x110#10)]).length % 3 = 1 ∧
    [HostInput.cmd (.ucmd 0x104#10), .cmd (.ucmd 0x0FF#10), .cmd (.ucmd 0x110#10),
      .cmd (.ucmd 0x142#10)].all carriesBytes = true ∧
    (pushedBytes [HostInput.cmd (.ucmd 0x104#10), .cmd (.ucmd 0x0FF#10), .cmd (.ucmd 0x110#10),
      .cmd (.ucmd 0x142#10)]).length % 3 = 0 ∧
    decode (.ucmd 0x2FF#10) = .uEnd := by
  decide

/-- RunResultsAreTheFunctions: inputs that let a run of each unit go on, words of the other port that would end or cut
that unit's run among them; the two ways of cutting each short. (The tests on runs above meet the clauses that start from
a result, and the clauses on both outcomes of `unpack`.) -/
theorem witness_run_inputs :
    (∀ x ∈ pairRun ++ [.cmd (.ucmd 0x200#10), .cmd (.ucmd 0x300#10)], packerRunEvent x = .goesOn) ∧
    (∀ x ∈ pairRun ++ [.cmd (.pcmd 0x2000#14), .cmd (.pcmd 0x3000#14)], unpackerRunEvent x = .goesOn) ∧
    pushedBytes pairRun = [0x04#8] ∧ unpack [0x04] = .formatError 1 ∧ unpack [] = .codes [] ∧
    decode (.pcmd 0x3ABC#14) = .pClr ∧ decode (.ucmd 0x3A5#10) = .uClr := by decide

/-- UEndChecksTheLength and FormatErrorEntry: a state for each clause, at `UP.CNT` 0, 1, 2 and faulted. -/
theorem witness_uEnd :
    cntOf (withUnpacker (.running .zero) 0 0).up = 0#2 ∧
    (errOf (withUnpacker (.running .one) 0 0).up = false ∧ cntOf (withUnpacker (.running .one) 0 0).up = 1#2) ∧
    (errOf (withUnpacker (.running .two) 0 0).up = false ∧ cntOf (withUnpacker (.running .two) 0 0).up = 2#2) ∧
    errOf (withUnpacker (.faulted .two) 0 0).up = true := by decide

/-- FaultedUnitIsTerminal, UClrClearsTheFault, LeavingTheFault: a faulted unit, words that do not clear it, and the two
inputs that do. -/
theorem witness_faulted : errOf (withUnpacker (.faulted .one) 0x04 0).up = true ∧
    (∀ w ∈ [CommandWord.ucmd 0x101#10, .ucmd 0x200#10, .ucmd 0x000#10], w.port = .up ∧ decode w ≠ .uClr) ∧
    (Instr.port .uEnd = .up ∧ Instr.uEnd ≠ .uClr) ∧
    ((∃ w, HostInput.cmd (.ucmd 0x3A5#10) = .cmd w ∧ decode w = .uClr) ∨
      ∃ p u, HostInput.cmd (.ucmd 0x3A5#10) = .rst p u) ∧
    ((∃ w, HostInput.rst none none = .cmd w ∧ decode w = .uClr) ∨ ∃ p u, HostInput.rst none none = .rst p u) :=
  ⟨by decide, by decide, by decide, .inl ⟨_, rfl, by decide⟩, .inr ⟨_, _, rfl⟩⟩

/-- UpErrLineIsALevel, UClrClearsTheFault: a step that raises the line, and one that lowers it. -/
theorem witness_line :
    (upErr (withUnpacker (.running .two) 0 0) = 0#1 ∧
      (nextOf (step ((withUnpacker (.running .two) 0 0).presenting [.cmd (.ucmd 0x200#10)]))).map upErr = some 1#1) ∧
    (upErr (withUnpacker (.faulted .two) 0 0) = 1#1 ∧
      (nextOf (step ((withUnpacker (.faulted .two) 0 0).presenting [.cmd (.ucmd 0x300#10)]))).map upErr
        = some 0#1) := by decide

/-- A state in the middle of two runs, with output of both units, a code and a byte held, and a word presented. -/
def midRun : State :=
  { pk := { hold := 0x041, full := true, out := [0x12, 0x34, 0x56] }
    up := { b0 := 0x04, b1 := 0x00, ctl := .running .one, out := [0x123, 0x456] }
    pending := [.cmd (.pcmd 0x1042#14)] }

/-- StepKeepsInv: a state that has the invariant and a step from it. -/
theorem witness_inv : Inv midRun ∧ (nextOf (step midRun)).isSome = true :=
  ⟨⟨by decide, by decide, by decide, by decide⟩, by decide⟩

/-- OutputGrowsByEmittingSteps: inputs without reset. -/
theorem witness_no_reset :
    ∀ x ∈ ((withPacker true 0x041).presenting [.cmd (.pcmd 0x2000#14)]).pending.take 1, isReset x = false := by
  decide

/-- IgnoredFieldsAndLegalData: the operation fields whose operand is ignored, and a pair that gives the triple of V24. -/
theorem witness_ignored : (0b00#2 ≠ 0b01#2 ∧ 0b10#2 ≠ 0b01#2 ∧ 0b11#2 ≠ 0b01#2) ∧
    (byte0Of 0x123 = 0x12#8 ∧ byte1Of 0x123 0x456 = 0x34#8 ∧ byte2Of 0x456 = 0x56#8) := by decide

/-- LengthsOfPackAndUnpack, UnpackByTriples, UnpackAfterPack, PackAfterUnpack, ConcatenationOfSequences,
EarlyEndInsertsZero, PackIsTheBitString: lengths of each kind, the empty one and the shortest with a rest among them. -/
theorem witness_lengths : ([] : List Byte).length % 3 = 0 ∧ [0x04#8, 0x10#8, 0x42#8].length % 3 = 0 ∧
    [0x04#8].length % 3 ≠ 0 ∧ [0x04#8, 0x10#8].length % 3 ≠ 0 ∧
    ([] : List Code).length % 2 = 0 ∧ [0x041#12, 0x042#12].length % 2 = 0 ∧ [0x041#12].length % 2 = 1 ∧
    unpack [0x04, 0x10, 0x42] = .codes [0x041#12, 0x042#12] := by decide

/-- PackAmbiguity: the pair of sequences of R82's example, from either side. -/
theorem witness_ambiguity : (pack [0x005] = pack [0x005, 0x000] ∧ [0x005#12] ≠ [0x005#12, 0x000#12]) ∧
    ([0x005#12].length % 2 = 1 ∧ [0x005#12, 0x000#12] = [0x005#12] ++ [0#12]) := by decide

/-- BufferBitsOfTheCodes: first and last code of a sequence, first and last bit; bits of the layout's edges. -/
theorem witness_bits : [0x123#12, 0x456#12, 0x789#12][0]? = some 0x123#12 ∧
    [0x123#12, 0x456#12, 0x789#12][2]? = some 0x789#12 ∧ (0 : Nat) < 12 ∧ 11 < 12 ∧ (7 : Nat) < 8 ∧ 3 < 4 := by
  decide

/-- DeadRegistersAreNeverSeen, UnitsRunIndependently, UnitsRunIndependentlyUnderReset: two states that differ in all three data registers, each holding nothing. -/
theorem witness_agree : AgreeWhereLive State.reset
    { pk := { State.reset.pk with hold := 0xFFF }, up := { State.reset.up with b0 := 0xFF, b1 := 0xFF },
      pending := [] } ∧
    State.reset.pk.hold ≠ 0xFFF#12 :=
  ⟨⟨rfl, ⟨rfl, rfl, by decide⟩, ⟨rfl, rfl, by decide, by decide⟩⟩, by decide⟩

/-- PClrAbandonsTheSequence: P.CLR and P.END differ when a code is held. -/
theorem witness_clr_differs : (after .pClr (withPacker true 0x041)).map (fun t => t.pk.out) ≠
    (after .pEnd (withPacker true 0x041)).map (fun t => t.pk.out) := by decide

end Sys2Proof.Tests
end

/-! The statements of spec/00_scope.md: a step runs the word presented first, on one unit, and appends at most one
output word (R10, R13, R17, R37, R39, R43). -/

namespace Sys2Proof.Machine

/-! ### A word's port -/

/-- The port a word is presented on is the port of the instruction it decodes to (R43). -/
@[simp] theorem decode_port (w : CommandWord) : (decode w).port = w.port := by
  cases w with
  | pcmd w =>
    simp only [decode, decodeP, CommandWord.port]
    split_ifs <;> rfl
  | ucmd w =>
    simp only [decode, decodeU, CommandWord.port]
    split_ifs <;> rfl

/-! ### What a command word does to the streams and to the other unit -/

/-- A packer word writes only the packer, and appends to `PK.OUT` nothing or the bytes of one output word. -/
theorem exec_of_port_pk {i : Instr} (hi : i.port = .pk) (s : State) :
    ∃ t, exec i s = .next t ∧ t.pending = s.pending ∧ t.up = s.up ∧
      (t.pk.out = s.pk.out ∨ ∃ word, t.pk.out = s.pk.out ++ wordBytes word) := by
  cases i with
  | pNop => exact ⟨s, rfl, rfl, rfl, .inl rfl⟩
  | pClr => exact ⟨_, rfl, rfl, rfl, .inl rfl⟩
  | pPush c =>
    cases hfull : s.pk.full with
    | false => exact ⟨_, execPPush_of_empty hfull, rfl, rfl, .inl rfl⟩
    | true => exact ⟨_, execPPush_of_full hfull, rfl, rfl, .inr ⟨_, rfl⟩⟩
  | pEnd =>
    cases hfull : s.pk.full with
    | false => exact ⟨_, execPEnd_of_empty hfull, rfl, rfl, .inl rfl⟩
    | true => exact ⟨_, execPEnd_of_full hfull, rfl, rfl, .inr ⟨_, rfl⟩⟩
  | uNop | uPush _ | uEnd | uClr => cases hi

/-- An unpacker word writes only the unpacker, and appends to `UP.OUT` nothing or the codes of one output word. -/
theorem exec_of_port_up {i : Instr} (hi : i.port = .up) (s : State) :
    ∃ t, exec i s = .next t ∧ t.pending = s.pending ∧ t.pk = s.pk ∧
      (t.up.out = s.up.out ∨ ∃ word, t.up.out = s.up.out ++ wordCodes word) := by
  cases i with
  | uNop => exact ⟨s, rfl, rfl, rfl, .inl rfl⟩
  | uClr => exact ⟨_, rfl, rfl, rfl, .inl rfl⟩
  | uPush b =>
    match hctl : s.up.ctl with
    | .faulted _ => exact ⟨_, execUPush_of_faulted hctl, rfl, rfl, .inl rfl⟩
    | .running .zero => exact ⟨_, execUPush_of_zero hctl, rfl, rfl, .inl rfl⟩
    | .running .one => exact ⟨_, execUPush_of_one hctl, rfl, rfl, .inl rfl⟩
    | .running .two => exact ⟨_, execUPush_of_two hctl, rfl, rfl, .inr ⟨_, rfl⟩⟩
  | uEnd =>
    match hctl : s.up.ctl with
    | .faulted _ => exact ⟨_, execUEnd_of_faulted hctl, rfl, rfl, .inl rfl⟩
    | .running .zero => exact ⟨_, execUEnd_of_zero hctl, rfl, rfl, .inl rfl⟩
    | .running .one => exact ⟨_, execUEnd_of_one hctl, rfl, rfl, .inl rfl⟩
    | .running .two => exact ⟨_, execUEnd_of_two hctl, rfl, rfl, .inl rfl⟩
  | pNop | pPush _ | pEnd | pClr => cases hi

/-! ### The step -/

/-- A step with a command word presented first is the meaning of the instruction it decodes to (R10, R39, R43). -/
theorem step_of_cmd {s : State} {w : CommandWord} {rest : List HostInput} (h : s.pending = .cmd w :: rest) :
    step s = exec (decode w) { s with pending := rest } := by
  simp [step, fetch, h]

/-- Settles O1: the rule of a step that finds a command word. -/
theorem stepRunsThePresentedWord : Obligations.StepRunsThePresentedWord :=
  fun _ _ _ => step_of_cmd

/-- Settles O4, by the port the word is presented on: that unit's rule says what is appended, and that the other unit
is not written at all. -/
theorem stepAppendsAtMostOneOutputWord : Obligations.StepAppendsAtMostOneOutputWord := by
  intro s w rest h
  rw [step_of_cmd h]
  cases hport : w.port with
  | pk =>
    obtain ⟨t, ht, hpending, hup, hout⟩ :=
      exec_of_port_pk ((decode_port w).trans hport) { s with pending := rest }
    refine ⟨t, ht, hpending, fun _ => ⟨hup ▸ .refl s.up, ?_⟩, nofun⟩
    exact hout.imp_right fun ⟨_, hword⟩ => ⟨_, _, _, hword⟩
  | up =>
    obtain ⟨t, ht, hpending, hpk, hout⟩ :=
      exec_of_port_up ((decode_port w).trans hport) { s with pending := rest }
    refine ⟨t, ht, hpending, nofun, fun _ => ⟨hpk ▸ .refl s.pk, ?_⟩⟩
    exact hout.imp_right fun ⟨_, hword⟩ => ⟨_, _, hword⟩

end Sys2Proof.Machine

/-! The statements of spec/10_state.md: the status words are copies of the registers (R18, R19), the invariants of R20, the
flags as counts (R12, R15), the streams as records of emissions (R13, R17), and data registers that hold nothing (R24,
R26, R119). -/

namespace Sys2Proof.Machine

/-! ### The step, input by input -/

/-- With nothing presented a step changes nothing (log 4). -/
theorem step_of_idle {s : State} (h : s.pending = []) : step s = .next s := by
  simp [step, fetch, h]

/-- A step that finds `rst` applies it (R105). -/
theorem step_of_rst {s : State} {p : Option PWord} {u : Option UWord} {rest : List HostInput}
    (h : s.pending = .rst p u :: rest) : step s = .next (applyReset { s with pending := rest }) := by
  simp [step, fetch, h]

/-- Steps after a first one that answers a next state go on from there. -/
theorem steps_succ_of_step {s t : State} (h : step s = .next t) (n : Nat) : steps (n + 1) s = steps n t := by
  simp [steps, h]

/-- An outcome answers one next state. -/
theorem next_unique {o : Host.Outcome State Fault Refusal} {s t : State} (hs : o = .next s) (ht : o = .next t) :
    s = t :=
  Host.Outcome.next.inj (hs.symm.trans ht)

/-- Induction over inputs of one kind, packaged: a relation between the inputs taken, the state before them and the state
after them holds when it holds of no input and a step that takes one more input keeps it. -/
theorem steps_of_inputs {ok : HostInput → Bool} {R : List HostInput → State → State → Prop}
    (hnil : ∀ s, R [] s s)
    (hcons : ∀ {x xs rest s t u}, ok x = true → s.pending = x :: rest → step s = .next t →
      R xs t u → R (x :: xs) s u)
    {xs rest : List HostInput} {s : State} (hp : s.pending = xs ++ rest) (hall : xs.all ok = true) :
    ∃ t, steps xs.length s = .next t ∧ R xs s t := by
  induction xs generalizing s with
  | nil => exact ⟨s, rfl, hnil s⟩
  | cons x xs ih =>
    obtain ⟨hx, hxs⟩ : ok x = true ∧ xs.all ok = true := by simpa using hall
    obtain ⟨t, ht, htp⟩ := step_takes hp
    obtain ⟨u, hu, hR⟩ := ih htp hxs
    exact ⟨u, (steps_succ_of_step ht _).trans hu, hcons hx hp ht hR⟩

/-! ### The flags as the host sees them (R18, R19, R90, R99) -/

/-- Settles O25: `USTAT` is cut back into the two registers it is put together from, and the other words are one bit of
one register. -/
theorem statusIsACopyOfTheRegisters : Obligations.StatusIsACopyOfTheRegisters := by
  intro s
  have hcnt : (ustat s).extractLsb' 0 2 = cntOf s.up := extract_low _ _
  have herr : (ustat s).getLsbD 2 = errOf s.up := BitVec.getLsbD_append.trans (by simp)
  refine ⟨by simp [pstat], herr, hcnt, by simp [upErr], ?_, ?_⟩ <;>
    cases h : errOf s.up <;> simp [causeCode, h, Config.causeFormatError, Config.causeNone]

/-! ### The output streams as records of emissions (R13, R17, R20 e and f) -/

/-- The streams of `t` are those of `s` with `p` output words appended on `PK.OUT` and `u` on `UP.OUT`. -/
structure Appends (p u : Nat) (s t : State) : Prop where
  pkOut : ∃ bs, t.pk.out = s.pk.out ++ bs ∧ bs.length = 3 * p
  upOut : ∃ cs, t.up.out = s.up.out ++ cs ∧ cs.length = 2 * u

theorem Appends.of_same {s t : State} (hpk : t.pk.out = s.pk.out) (hup : t.up.out = s.up.out) :
    Appends 0 0 s t :=
  ⟨⟨[], by simp [hpk], rfl⟩, ⟨[], by simp [hup], rfl⟩⟩

theorem Appends.of_triple {s t : State} {word : OutWord} (hpk : t.pk.out = s.pk.out ++ wordBytes word)
    (hup : t.up.out = s.up.out) : Appends 1 0 s t :=
  ⟨⟨_, hpk, rfl⟩, ⟨[], by simp [hup], rfl⟩⟩

theorem Appends.of_pair {s t : State} {word : OutWord} (hpk : t.pk.out = s.pk.out)
    (hup : t.up.out = s.up.out ++ wordCodes word) : Appends 0 1 s t :=
  ⟨⟨[], by simp [hpk], rfl⟩, ⟨_, hup, rfl⟩⟩

theorem Appends.trans {p u p' u' : Nat} {s t r : State} (h : Appends p u s t) (h' : Appends p' u' t r) :
    Appends (p + p') (u + u') s r := by
  obtain ⟨⟨bs, hpk, hbs⟩, ⟨cs, hup, hcs⟩⟩ := h
  obtain ⟨⟨bs', hpk', hbs'⟩, ⟨cs', hup', hcs'⟩⟩ := h'
  exact ⟨⟨bs ++ bs', by simp [hpk', hpk], by simp [hbs, hbs', Nat.mul_add]⟩,
    ⟨cs ++ cs', by simp [hup', hup], by simp [hcs, hcs', Nat.mul_add]⟩⟩

/-- A command word appends one output word where R20 e and f say that its step emits, and otherwise nothing. -/
theorem exec_appends (i : Instr) (s : State) :
    ∃ t, exec i s = .next t ∧ t.pending = s.pending ∧
      Appends (wordMakesPackerEmit s.pk.full i).toNat (wordMakesUnpackerEmit s.up.ctl i).toNat s t := by
  cases i with
  | pNop | pClr | uNop | uClr => exact ⟨_, rfl, rfl, .of_same rfl rfl⟩
  | pPush c =>
    cases hfull : s.pk.full with
    | false => exact ⟨_, execPPush_of_empty hfull, rfl, .of_same rfl rfl⟩
    | true => exact ⟨_, execPPush_of_full hfull, rfl, .of_triple rfl rfl⟩
  | pEnd =>
    cases hfull : s.pk.full with
    | false => exact ⟨_, execPEnd_of_empty hfull, rfl, .of_same rfl rfl⟩
    | true => exact ⟨_, execPEnd_of_full hfull, rfl, .of_triple rfl rfl⟩
  | uPush b =>
    match hctl : s.up.ctl with
    | .faulted _ => exact ⟨_, execUPush_of_faulted hctl, rfl, .of_same rfl rfl⟩
    | .running .zero => exact ⟨_, execUPush_of_zero hctl, rfl, .of_same rfl rfl⟩
    | .running .one => exact ⟨_, execUPush_of_one hctl, rfl, .of_same rfl rfl⟩
    | .running .two => exact ⟨_, execUPush_of_two hctl, rfl, .of_pair rfl rfl⟩
  | uEnd =>
    match hctl : s.up.ctl with
    | .faulted _ => exact ⟨_, execUEnd_of_faulted hctl, rfl, .of_same rfl rfl⟩
    | .running .zero => exact ⟨_, execUEnd_of_zero hctl, rfl, .of_same rfl rfl⟩
    | .running .one => exact ⟨_, execUEnd_of_one hctl, rfl, .of_same rfl rfl⟩
    | .running .two => exact ⟨_, execUEnd_of_two hctl, rfl, .of_same rfl rfl⟩

/-! ### The invariant (R20 a to d) -/

/-- `UP.CNT` is legal in every state (R20 a). -/
theorem cntOf_cases (u : Unpacker) : cntOf u = 0#2 ∨ cntOf u = 1#2 ∨ cntOf u = 2#2 := by
  rcases ctl_cases u with h | h | h | h | h <;> simp [h]

/-- A raised error has a leftover count in every state (R20 b). -/
theorem leftover_of_errOf {u : Unpacker} (he : errOf u = true) : cntOf u = 1#2 ∨ cntOf u = 2#2 := by
  rcases ctl_cases u with h | h | h | h | h <;> simp_all

/-- Clauses a and b hold of every value of the registers (log 2): the invariant is about the streams. -/
theorem inv_iff (s : State) : Inv s ↔ s.pk.out.length % 3 = 0 ∧ s.up.out.length % 2 = 0 := by
  have hcnt : cntOf s.up ≠ 3#2 := by rcases cntOf_cases s.up with h | h | h <;> simp [h]
  exact ⟨fun h => ⟨h.pkOutTriples, h.upOutPairs⟩, fun ⟨hpk, hup⟩ => ⟨hcnt, leftover_of_errOf, hpk, hup⟩⟩

/-- Whole output words keep the invariant. -/
theorem Appends.inv {p u : Nat} {s t : State} (h : Appends p u s t) (hs : Inv s) : Inv t := by
  obtain ⟨⟨bs, hpk, hbs⟩, ⟨cs, hup, hcs⟩⟩ := h
  obtain ⟨hpkOut, hupOut⟩ := (inv_iff s).1 hs
  refine (inv_iff t).2 ⟨?_, ?_⟩
  · simp only [hpk, List.length_append]
    omega
  · simp only [hup, List.length_append]
    omega

/-- Settles O27: both streams are empty. -/
theorem resetStateHasInv : Obligations.ResetStateHasInv := (inv_iff _).2 ⟨rfl, rfl⟩

/-- Settles O26, by the input the step takes: none changes nothing, a word appends whole output words, and reset empties
both streams. -/
theorem stepKeepsInv : Obligations.StepKeepsInv := by
  intro s t hs ht
  match hp : s.pending with
  | [] =>
    obtain rfl := next_unique (step_of_idle hp) ht
    exact hs
  | .cmd w :: rest =>
    obtain ⟨t', ht', -, happ⟩ := exec_appends (decode w) { s with pending := rest }
    obtain rfl := next_unique ((step_of_cmd hp).trans ht') ht
    exact happ.inv ((inv_iff _).2 ((inv_iff s).1 hs))
  | .rst _ _ :: rest =>
    obtain rfl := next_unique (step_of_rst hp) ht
    exact (inv_iff _).2 ⟨rfl, rfl⟩

/-! ### Counting the emitting steps -/

theorem countSteps_succ {s t : State} (p : State → HostInput → Bool) (h : step s = .next t) (n : Nat) :
    countSteps p (n + 1) s = countSteps p 1 s + countSteps p n t := by
  simp [countSteps, h]

theorem countSteps_one_of_idle {s : State} (p : State → HostInput → Bool) (h : s.pending = []) :
    countSteps p 1 s = 0 := by
  simp [countSteps, h, step_of_idle h]

theorem countSteps_one_of_input {s : State} {x : HostInput} {rest : List HostInput}
    (p : State → HostInput → Bool) (h : s.pending = x :: rest) : countSteps p 1 s = (p s x).toNat := by
  obtain ⟨t, ht, -⟩ := step_takes h
  cases hx : p s x <;> simp [countSteps, h, ht, hx]

/-- One step that takes no reset appends what it is counted to emit. -/
theorem step_appends {s : State} (h : ∀ x ∈ s.pending.take 1, isReset x = false) :
    ∃ t, step s = .next t ∧ t.pending = s.pending.drop 1 ∧
      Appends (countSteps packerEmits 1 s) (countSteps unpackerEmits 1 s) s t := by
  match hp : s.pending with
  | [] =>
    refine ⟨s, step_of_idle hp, hp, ?_⟩
    rw [countSteps_one_of_idle _ hp, countSteps_one_of_idle _ hp]
    exact .of_same rfl rfl
  | .cmd w :: rest =>
    obtain ⟨t, ht, htp, happ⟩ := exec_appends (decode w) { s with pending := rest }
    refine ⟨t, (step_of_cmd hp).trans ht, htp, ?_⟩
    rw [countSteps_one_of_input _ hp, countSteps_one_of_input _ hp]
    -- the emission conditions and the streams do not read `pending`
    exact ⟨happ.pkOut, happ.upOut⟩
  | .rst _ _ :: _ => simp [hp, isReset] at h

/-- Any number of steps that take no reset append what they are counted to emit. -/
theorem steps_append (n : Nat) {s : State} (h : ∀ x ∈ s.pending.take n, isReset x = false) :
    ∃ t, steps n s = .next t ∧
      Appends (countSteps packerEmits n s) (countSteps unpackerEmits n s) s t := by
  induction n generalizing s with
  | zero => exact ⟨s, rfl, .of_same rfl rfl⟩
  | succ n ih =>
    have hfirst : ∀ x ∈ s.pending.take 1, isReset x = false :=
      fun x hx => h x (List.take_subset_take_left _ (by omega) hx)
    obtain ⟨t, ht, htp, happ⟩ := step_appends hfirst
    have hrest : ∀ x ∈ t.pending.take n, isReset x = false := by
      intro x hx
      refine h x (List.mem_of_mem_drop (i := 1) ?_)
      rwa [List.drop_take, ← htp]
    obtain ⟨u, hu, happ'⟩ := ih hrest
    refine ⟨u, (steps_succ_of_step ht n).trans hu, ?_⟩
    rw [countSteps_succ packerEmits ht n, countSteps_succ unpackerEmits ht n]
    exact happ.trans happ'

/-- Settles O29: the streams after any number of steps without reset. -/
theorem outputGrowsByEmittingSteps : Obligations.OutputGrowsByEmittingSteps := by
  intro n s h
  obtain ⟨t, ht, ⟨bs, hpk, hbs⟩, ⟨cs, hup, hcs⟩⟩ := steps_append n h
  exact ⟨t, bs, cs, ht, hpk, hup, hbs, hcs⟩

/-- Settles O28: from reset the streams start empty, so that they are what the steps emitted, and whole output words;
the flags take legal values in every state. -/
theorem reachableStatesFromReset : Obligations.ReachableStatesFromReset := by
  intro ws
  have hcmd : ∀ x ∈ (State.reset.presenting (ws.map .cmd)).pending.take ws.length, isReset x = false := by
    intro x hx
    obtain ⟨w, -, rfl⟩ : ∃ w ∈ ws, .cmd w = x := by
      simpa [State.presenting, State.reset] using List.mem_of_mem_take hx
    rfl
  obtain ⟨t, ht, happ⟩ := steps_append ws.length hcmd
  obtain ⟨-, herr, hpkOut, hupOut⟩ := happ.inv ((inv_iff _).2 ⟨rfl, rfl⟩)
  obtain ⟨⟨bs, hpk, hbs⟩, ⟨cs, hup, hcs⟩⟩ := happ
  exact ⟨t, ht, cntOf_cases t.up, herr, hpkOut, hupOut, hpk ▸ hbs, hup ▸ hcs⟩

/-! ### `PK.FULL` and `UP.CNT` as counts (R12, R15) -/

theorem pushedCodes_cons (x : HostInput) (xs : List HostInput) :
    pushedCodes (x :: xs) = pushedCodes [x] ++ pushedCodes xs := by
  cases x <;> simp [pushedCodes]

theorem pushedBytes_cons (x : HostInput) (xs : List HostInput) :
    pushedBytes (x :: xs) = pushedBytes [x] ++ pushedBytes xs := by
  cases x <;> simp [pushedBytes]

/-- Each code pushed turns `PK.FULL` over (R12). -/
theorem exec_full_of_carriesCodes {i : Instr} (hi : wordCarriesCodes i = true) (s : State) :
    ∃ t, exec i s = .next t ∧ t.pk.full = not^[(wordPushedCodes i).length] s.pk.full := by
  cases i with
  | pNop => exact ⟨s, rfl, rfl⟩
  | pPush c =>
    cases hfull : s.pk.full with
    | false => exact ⟨_, execPPush_of_empty hfull, rfl⟩
    | true => exact ⟨_, execPPush_of_full hfull, rfl⟩
  | pEnd | pClr | uNop | uPush _ | uEnd | uClr => cases hi

/-- Each byte pushed moves `UP.CNT` on while `UP.ERR = 0` (R15). -/
theorem exec_held_of_carriesBytes {i : Instr} (hi : wordCarriesBytes i = true) {s : State} {held : Held}
    (hs : s.up.ctl = .running held) :
    ∃ t, exec i s = .next t ∧ t.up.ctl = .running (nextHeld^[(wordPushedBytes i).length] held) := by
  cases i with
  | uNop => exact ⟨s, rfl, hs⟩
  | uPush b =>
    cases held with
    | zero => exact ⟨_, execUPush_of_zero hs, rfl⟩
    | one => exact ⟨_, execUPush_of_one hs, rfl⟩
    | two => exact ⟨_, execUPush_of_two hs, rfl⟩
  | pNop | pPush _ | pEnd | pClr | uEnd | uClr => cases hi

theorem step_full_of_carriesCodes {x : HostInput} {rest : List HostInput} {s t : State}
    (hx : carriesCodes x = true) (hp : s.pending = x :: rest) (ht : step s = .next t) :
    t.pk.full = not^[(pushedCodes [x]).length] s.pk.full := by
  cases x with
  | cmd w =>
    obtain ⟨t', ht', hfull⟩ := exec_full_of_carriesCodes hx { s with pending := rest }
    obtain rfl := next_unique ((step_of_cmd hp).trans ht') ht
    simpa [pushedCodes] using hfull
  | rst => cases hx

theorem step_held_of_carriesBytes {x : HostInput} {rest : List HostInput} {s t : State} {held : Held}
    (hx : carriesBytes x = true) (hp : s.pending = x :: rest) (ht : step s = .next t)
    (hs : s.up.ctl = .running held) :
    t.up.ctl = .running (nextHeld^[(pushedBytes [x]).length] held) := by
  cases x with
  | cmd w =>
    obtain ⟨t', ht', hheld⟩ := exec_held_of_carriesBytes (s := { s with pending := rest }) hx hs
    obtain rfl := next_unique ((step_of_cmd hp).trans ht') ht
    simpa [pushedBytes] using hheld
  | rst => cases hx

/-- After words that only carry a code sequence on, `PK.FULL` has been turned over once for each code (R12). -/
theorem steps_full_of_carriesCodes {xs rest : List HostInput} {s : State} (hp : s.pending = xs ++ rest)
    (hall : xs.all carriesCodes = true) :
    ∃ t, steps xs.length s = .next t ∧ t.pk.full = not^[(pushedCodes xs).length] s.pk.full := by
  refine steps_of_inputs (ok := carriesCodes)
    (R := fun xs s t => t.pk.full = not^[(pushedCodes xs).length] s.pk.full) (fun _ => rfl) ?_ hp hall
  intro x xs _ s t u hx hp ht hu
  rw [hu, step_full_of_carriesCodes hx hp ht, ← Function.iterate_add_apply, pushedCodes_cons x xs,
    List.length_append, Nat.add_comm]

/-- After words that only carry a byte buffer on, `UP.CNT` has been moved on once for each byte (R15). -/
theorem steps_held_of_carriesBytes {xs rest : List HostInput} {s : State} {held : Held}
    (hp : s.pending = xs ++ rest) (hall : xs.all carriesBytes = true) (hs : s.up.ctl = .running held) :
    ∃ t, steps xs.length s = .next t ∧
      t.up.ctl = .running (nextHeld^[(pushedBytes xs).length] held) := by
  obtain ⟨t, ht, hheld⟩ := steps_of_inputs (ok := carriesBytes)
    (R := fun xs s t => ∀ held, s.up.ctl = .running held →
      t.up.ctl = .running (nextHeld^[(pushedBytes xs).length] held)) (fun _ _ hs => hs)
    (fun {x xs _ s t u} hx hp ht hu held hs => by
      rw [hu _ (step_held_of_carriesBytes hx hp ht hs), ← Function.iterate_add_apply,
        pushedBytes_cons x xs, List.length_append, Nat.add_comm]) hp hall
  exact ⟨t, ht, hheld held hs⟩

/-- A flag that starts at 0 and is turned over n times is the parity of n. -/
theorem not_iterate_false : ∀ n : Nat, not^[n] false = decide (n % 2 = 1)
  | 0 | 1 => rfl
  | n + 2 => by
    rw [Nat.add_mod_right]
    exact not_iterate_false n

/-- `UP.CNT` counts 0, 1, 2, 0 (R15, R25). -/
theorem heldBits_nextHeld_iterate : ∀ n : Nat, heldBits (nextHeld^[n] .zero) = BitVec.ofNat 2 (n % 3)
  | 0 | 1 | 2 => rfl
  | n + 3 => by
    rw [Nat.add_mod_right]
    exact heldBits_nextHeld_iterate n

theorem cntOf_of_running {u : Unpacker} {held : Held} (h : u.ctl = .running held) : cntOf u = heldBits held := by
  simp [cntOf, h]

theorem errOf_of_running {u : Unpacker} {held : Held} (h : u.ctl = .running held) : errOf u = false := by
  simp [errOf, h]

/-- Settles O13: the flag starts at 0 and is turned over by each code. -/
theorem fullIsTheParityOfCodes : Obligations.FullIsTheParityOfCodes := by
  intro s xs hs hall
  obtain ⟨t, ht, hfull⟩ := steps_full_of_carriesCodes (s := s.presenting xs) rfl hall
  have hstart : (s.presenting xs).pk.full = false := hs
  exact ⟨t, ht, by rw [hfull, hstart, not_iterate_false]⟩

/-- Settles O19: the count starts at 0 and is moved on by each byte. -/
theorem cntIsBytesModuloThree : Obligations.CntIsBytesModuloThree := by
  intro s xs hs hall
  obtain ⟨t, ht, hctl⟩ := steps_held_of_carriesBytes (s := s.presenting xs) rfl hall hs
  exact ⟨t, ht, errOf_of_running hctl, by rw [cntOf_of_running hctl, heldBits_nextHeld_iterate]⟩

/-! ### Data registers that hold nothing (R24, R26, R119) -/

/-- What the host sees reads no data register. -/
theorem AgreeWhereLive.observe_eq {s t : State} (h : AgreeWhereLive s t) : observe s = observe t := by
  obtain ⟨-, hpk, hup⟩ := h
  simp [observe, pstat, ustat, upErr, errOf, cntOf, hpk.full, hpk.out, hup.ctl, hup.out]

/-- A word of the unpacker's port does not write the packer (R2, R40). -/
theorem exec_pk_of_port_up {i : Instr} {s t : State} (hi : i.port = .up) (h : exec i s = .next t) : t.pk = s.pk := by
  obtain ⟨t', ht', -, hpk, -⟩ := exec_of_port_up hi s
  rwa [next_unique h ht']

/-- A word of the packer's port does not write the unpacker (R2, R40). -/
theorem exec_up_of_port_pk {i : Instr} {s t : State} (hi : i.port = .pk) (h : exec i s = .next t) : t.up = s.up := by
  obtain ⟨t', ht', -, hup, -⟩ := exec_of_port_pk hi s
  rwa [next_unique h ht']

/-- A command word that finds packers that agree where live leaves packers that do: P.PUSH and P.END read `PK.HOLD` only
while `PK.FULL = 1`, and the unpacker's words do not read or write the packer. -/
theorem exec_packer_agree {i : Instr} {s t s' t' : State} (hs : exec i s = .next s')
    (ht : exec i t = .next t') (h : s.pk.AgreeWhereLive t.pk) : s'.pk.AgreeWhereLive t'.pk := by
  cases i with
  | pNop => cases hs; cases ht; exact h
  | pClr => cases hs; cases ht; exact ⟨rfl, h.out, nofun⟩
  | pPush c =>
    cases hfull : s.pk.full with
    | false =>
      obtain rfl := next_unique (execPPush_of_empty hfull) hs
      obtain rfl := next_unique (execPPush_of_empty (h.full.trans hfull)) ht
      exact ⟨rfl, h.out, fun _ => rfl⟩
    | true =>
      obtain rfl := next_unique (execPPush_of_full hfull) hs
      obtain rfl := next_unique (execPPush_of_full (h.full.trans hfull)) ht
      exact ⟨rfl, by simp [h.out, h.hold hfull], nofun⟩
  | pEnd =>
    cases hfull : s.pk.full with
    | false =>
      obtain rfl := next_unique (execPEnd_of_empty hfull) hs
      obtain rfl := next_unique (execPEnd_of_empty (h.full.trans hfull)) ht
      exact h
    | true =>
      obtain rfl := next_unique (execPEnd_of_full hfull) hs
      obtain rfl := next_unique (execPEnd_of_full (h.full.trans hfull)) ht
      exact ⟨rfl, by simp [h.out, h.hold hfull], nofun⟩
  | uNop | uPush _ | uEnd | uClr =>
    rwa [exec_pk_of_port_up rfl hs, exec_pk_of_port_up rfl ht]

/-- A command word that finds unpackers that agree where live leaves unpackers that do: only the U.PUSH that finds
`UP.CNT = 2` reads `UP.B0` and `UP.B1`, and the packer's words do not read or write the unpacker. -/
theorem exec_unpacker_agree {i : Instr} {s t s' t' : State} (hs : exec i s = .next s')
    (ht : exec i t = .next t') (h : s.up.AgreeWhereLive t.up) : s'.up.AgreeWhereLive t'.up := by
  cases i with
  | uNop => cases hs; cases ht; exact h
  | uClr => cases hs; cases ht; exact ⟨rfl, h.out, nofun, nofun⟩
  | uPush b =>
    match hctl : s.up.ctl with
    | .faulted _ =>
      obtain rfl := next_unique (execUPush_of_faulted hctl) hs
      obtain rfl := next_unique (execUPush_of_faulted (h.ctl.trans hctl)) ht
      exact h
    | .running .zero =>
      obtain rfl := next_unique (execUPush_of_zero hctl) hs
      obtain rfl := next_unique (execUPush_of_zero (h.ctl.trans hctl)) ht
      exact ⟨rfl, h.out, fun _ => rfl, nofun⟩
    | .running .one =>
      obtain rfl := next_unique (execUPush_of_one hctl) hs
      obtain rfl := next_unique (execUPush_of_one (h.ctl.trans hctl)) ht
      exact ⟨rfl, h.out, fun _ => h.b0 (by simp [cntOf, hctl, heldBits]), fun _ => rfl⟩
    | .running .two =>
      obtain rfl := next_unique (execUPush_of_two hctl) hs
      obtain rfl := next_unique (execUPush_of_two (h.ctl.trans hctl)) ht
      have hb0 : t.up.b0 = s.up.b0 := h.b0 (by simp [cntOf, hctl, heldBits])
      have hb1 : t.up.b1 = s.up.b1 := h.b1 (by simp [cntOf, hctl, heldBits])
      exact ⟨rfl, by simp [h.out, hb0, hb1], nofun, nofun⟩
  | uEnd =>
    match hctl : s.up.ctl with
    | .faulted _ =>
      obtain rfl := next_unique (execUEnd_of_faulted hctl) hs
      obtain rfl := next_unique (execUEnd_of_faulted (h.ctl.trans hctl)) ht
      exact h
    | .running .zero =>
      obtain rfl := next_unique (execUEnd_of_zero hctl) hs
      obtain rfl := next_unique (execUEnd_of_zero (h.ctl.trans hctl)) ht
      exact h
    | .running .one =>
      obtain rfl := next_unique (execUEnd_of_one hctl) hs
      obtain rfl := next_unique (execUEnd_of_one (h.ctl.trans hctl)) ht
      exact ⟨rfl, h.out, fun _ => h.b0 (by simp [cntOf, hctl, heldBits]), nofun⟩
    | .running .two =>
      obtain rfl := next_unique (execUEnd_of_two hctl) hs
      obtain rfl := next_unique (execUEnd_of_two (h.ctl.trans hctl)) ht
      exact ⟨rfl, h.out, fun _ => h.b0 (by simp [cntOf, hctl, heldBits]),
        fun _ => h.b1 (by simp [cntOf, hctl, heldBits])⟩
  | pNop | pPush _ | pEnd | pClr =>
    rwa [exec_up_of_port_pk rfl hs, exec_up_of_port_pk rfl ht]

/-- A step keeps agreement where live. -/
theorem step_agree {s t : State} (h : AgreeWhereLive s t) :
    ∃ s' t', step s = .next s' ∧ step t = .next t' ∧ AgreeWhereLive s' t' := by
  match hp : s.pending with
  | [] => exact ⟨s, t, step_of_idle hp, step_of_idle (h.pending.trans hp), h⟩
  | .cmd w :: rest =>
    obtain ⟨s', hs, hsp⟩ := exec_next (decode w) { s with pending := rest }
    obtain ⟨t', ht, htp⟩ := exec_next (decode w) { t with pending := rest }
    exact ⟨s', t', (step_of_cmd hp).trans hs, (step_of_cmd (h.pending.trans hp)).trans ht,
      htp.trans hsp.symm, exec_packer_agree hs ht h.pk, exec_unpacker_agree hs ht h.up⟩
  | .rst _ _ :: rest =>
    exact ⟨_, _, step_of_rst hp, step_of_rst (h.pending.trans hp), rfl, .refl _, .refl _⟩

/-- Any number of steps keep agreement where live. -/
theorem steps_agree (n : Nat) {s t : State} (h : AgreeWhereLive s t) :
    ∃ s' t', steps n s = .next s' ∧ steps n t = .next t' ∧ AgreeWhereLive s' t' := by
  induction n generalizing s t with
  | zero => exact ⟨s, t, rfl, rfl, h⟩
  | succ n ih =>
    obtain ⟨s₁, t₁, hs₁, ht₁, h₁⟩ := step_agree h
    obtain ⟨s', t', hs, ht, h'⟩ := ih h₁
    exact ⟨s', t', (steps_succ_of_step hs₁ n).trans hs, (steps_succ_of_step ht₁ n).trans ht, h'⟩

/-- Settles O57: agreement where live is kept by steps, and what the host sees is a function of what it fixes. -/
theorem deadRegistersAreNeverSeen : Obligations.DeadRegistersAreNeverSeen := by
  intro s t h
  refine ⟨h.observe_eq, fun n => ?_⟩
  obtain ⟨s', t', hs, ht, h'⟩ := steps_agree n h
  exact ⟨s', t', hs, ht, h', h'.observe_eq⟩

end Sys2Proof.Machine

/-! The statements of spec/20_memory.md: the two units run independently (R40), and the packed buffer holds the bits of
the codes in order (R30). -/

namespace Sys2Proof.Machine

/-! ### One unit against that unit alone (R40) -/

/-- A step that takes an input that does not act on the packer leaves the packer as it was. -/
theorem step_pk_of_not_acts {x : HostInput} {rest : List HostInput} {s t : State} (hx : actsOnPacker x = false)
    (hs : s.pending = x :: rest) (ht : step s = .next t) : t.pk = s.pk := by
  match x with
  | .cmd (.ucmd w) =>
    rw [step_of_cmd hs] at ht
    -- taking the input does not write the packer
    exact (exec_pk_of_port_up (decode_port (.ucmd w)) ht :)
  | .cmd (.pcmd _) | .rst _ _ => cases hx

/-- A step that takes an input that does not act on the unpacker leaves the unpacker as it was. -/
theorem step_up_of_not_acts {x : HostInput} {rest : List HostInput} {s t : State} (hx : actsOnUnpacker x = false)
    (hs : s.pending = x :: rest) (ht : step s = .next t) : t.up = s.up := by
  match x with
  | .cmd (.pcmd w) =>
    rw [step_of_cmd hs] at ht
    -- taking the input does not write the unpacker
    exact (exec_up_of_port_pk (decode_port (.pcmd w)) ht :)
  | .cmd (.ucmd _) | .rst _ _ => cases hx

/-- Steps that take the same input, whatever comes after it, keep the agreement of each unit by itself. -/
theorem step_units_agree {x : HostInput} {rest rest' : List HostInput} {s p s' p' : State}
    (hs : s.pending = x :: rest) (hp : p.pending = x :: rest') (hs' : step s = .next s') (hp' : step p = .next p') :
    (s.pk.AgreeWhereLive p.pk → s'.pk.AgreeWhereLive p'.pk) ∧
      (s.up.AgreeWhereLive p.up → s'.up.AgreeWhereLive p'.up) := by
  cases x with
  | cmd w =>
    rw [step_of_cmd hs] at hs'
    rw [step_of_cmd hp] at hp'
    -- taking the input writes neither unit
    exact ⟨(exec_packer_agree hs' hp' :), (exec_unpacker_agree hs' hp' :)⟩
  | rst =>
    obtain rfl := next_unique (step_of_rst hs) hs'
    obtain rfl := next_unique (step_of_rst hp) hp'
    exact ⟨fun _ => .refl _, fun _ => .refl _⟩

/-- Simulation by the inputs that act, packaged: a relation of two states that steps taking the same input keep, and
that a step of the first state alone keeps when its input does not act, holds between the end of any inputs and the end
of the acting ones among them. -/
theorem steps_filter_of_sim {acts : HostInput → Bool} {R : State → State → Prop}
    (hact : ∀ {x rest rest' s p s' p'}, s.pending = x :: rest → p.pending = x :: rest' →
      step s = .next s' → step p = .next p' → R s p → R s' p')
    (hskip : ∀ {x rest s p s'}, acts x = false → s.pending = x :: rest → step s = .next s' → R s p → R s' p)
    {xs rest rest' : List HostInput} {s p : State} (hs : s.pending = xs ++ rest)
    (hp : p.pending = xs.filter acts ++ rest') (h : R s p) :
    ∃ t tp, steps xs.length s = .next t ∧ steps (xs.filter acts).length p = .next tp ∧ R t tp := by
  induction xs generalizing s p with
  | nil => exact ⟨s, p, rfl, rfl, h⟩
  | cons x xs ih =>
    obtain ⟨s', hs', hsp⟩ := step_takes hs
    cases hx : acts x with
    | true =>
      rw [List.filter_cons_of_pos hx] at hp ⊢
      obtain ⟨p', hp', hpp⟩ := step_takes hp
      obtain ⟨t, tp, ht, htp, hR⟩ := ih hsp hpp (hact hs hp hs' hp' h)
      exact ⟨t, tp, (steps_succ_of_step hs' _).trans ht, (steps_succ_of_step hp' _).trans htp, hR⟩
    | false =>
      rw [List.filter_cons_of_neg (by simp [hx])] at hp ⊢
      obtain ⟨t, tp, ht, htp, hR⟩ := ih hsp hp (hskip hx hs hs' h)
      exact ⟨t, tp, (steps_succ_of_step hs' _).trans ht, htp, hR⟩

/-- The packer ends as on the inputs that act on it. -/
theorem steps_packer_alone (xs : List HostInput) {s p : State} (h : s.pk.AgreeWhereLive p.pk) :
    ∃ t tp, steps xs.length (s.presenting xs) = .next t ∧
      steps (xs.filter actsOnPacker).length (p.presenting (xs.filter actsOnPacker)) = .next tp ∧
      t.pk.AgreeWhereLive tp.pk :=
  steps_filter_of_sim (R := fun s p => s.pk.AgreeWhereLive p.pk)
    (fun hs hp hs' hp' h => (step_units_agree hs hp hs' hp').1 h)
    (fun hx hs hs' h => step_pk_of_not_acts hx hs hs' ▸ h) rfl rfl h

/-- The unpacker ends as on the inputs that act on it. -/
theorem steps_unpacker_alone (xs : List HostInput) {s u : State} (h : s.up.AgreeWhereLive u.up) :
    ∃ t tu, steps xs.length (s.presenting xs) = .next t ∧
      steps (xs.filter actsOnUnpacker).length (u.presenting (xs.filter actsOnUnpacker)) = .next tu ∧
      t.up.AgreeWhereLive tu.up :=
  steps_filter_of_sim (R := fun s u => s.up.AgreeWhereLive u.up)
    (fun hs hp hs' hp' h => (step_units_agree hs hp hs' hp').2 h)
    (fun hx hs hs' h => step_up_of_not_acts hx hs hs' ▸ h) rfl rfl h

/-- Settles O60: the simulation of each unit by that unit alone, at the one end of the interleaved inputs. -/
theorem unitsRunIndependentlyUnderReset : Obligations.UnitsRunIndependentlyUnderReset := by
  intro s p u xs hpk hup
  obtain ⟨t, tp, ht, htp, hpk'⟩ := steps_packer_alone xs hpk
  obtain ⟨t', tu, ht', htu, hup'⟩ := steps_unpacker_alone xs hup
  obtain rfl := next_unique ht ht'
  exact ⟨t, tp, tu, ht, htp, htu, hpk', hup'⟩

/-! ### Words of one port alone -/

/-- Of the command words, those of its own port act on the packer. -/
theorem actsOnPacker_cmd (w : CommandWord) : actsOnPacker (.cmd w) = decide (w.port = .pk) := by
  cases w <;> rfl

/-- Of the command words, those of its own port act on the unpacker. -/
theorem actsOnUnpacker_cmd (w : CommandWord) : actsOnUnpacker (.cmd w) = decide (w.port = .up) := by
  cases w <;> rfl

/-- The packer's own words among command words, picked as inputs or as words. -/
theorem filter_actsOnPacker_cmd (ws : List CommandWord) :
    (ws.map HostInput.cmd).filter actsOnPacker = (ws.filter fun w => w.port = .pk).map .cmd := by
  simp [List.filter_map, Function.comp_def, actsOnPacker_cmd]

/-- The unpacker's own words among command words, picked as inputs or as words. -/
theorem filter_actsOnUnpacker_cmd (ws : List CommandWord) :
    (ws.map HostInput.cmd).filter actsOnUnpacker = (ws.filter fun w => w.port = .up).map .cmd := by
  simp [List.filter_map, Function.comp_def, actsOnUnpacker_cmd]

/-- The packer's words leave the unpacker as it was. -/
theorem steps_up_of_port_pk {ws : List CommandWord} (hws : ∀ w ∈ ws, w.port = .pk) {s t : State}
    (ht : steps ws.length (s.presenting (ws.map .cmd)) = .next t) : t.up = s.up := by
  have hall : (ws.map HostInput.cmd).all (!actsOnUnpacker ·) = true := by
    simpa [actsOnUnpacker_cmd] using fun w hw => by simp [hws w hw]
  obtain ⟨t', ht', hup⟩ := steps_of_inputs (s := s.presenting (ws.map .cmd)) (R := fun _ s t => t.up = s.up)
    (fun _ => rfl) (fun hx hs ht hu => hu.trans (step_up_of_not_acts (by simpa using hx) hs ht)) rfl hall
  rw [List.length_map] at ht'
  rwa [next_unique ht ht']

/-- The unpacker's words leave the packer as it was. -/
theorem steps_pk_of_port_up {ws : List CommandWord} (hws : ∀ w ∈ ws, w.port = .up) {s t : State}
    (ht : steps ws.length (s.presenting (ws.map .cmd)) = .next t) : t.pk = s.pk := by
  have hall : (ws.map HostInput.cmd).all (!actsOnPacker ·) = true := by
    simpa [actsOnPacker_cmd] using fun w hw => by simp [hws w hw]
  obtain ⟨t', ht', hpk⟩ := steps_of_inputs (s := s.presenting (ws.map .cmd)) (R := fun _ s t => t.pk = s.pk)
    (fun _ => rfl) (fun hx hs ht hu => hu.trans (step_pk_of_not_acts (by simpa using hx) hs ht)) rfl hall
  rw [List.length_map] at ht'
  rwa [next_unique ht ht']

/-! ### Command words in any interleaving (R40) -/

/-- Steps of the two units commute: each word finds its unit as the other order does, since the other word does not
write it. -/
theorem exec_commute {i j : Instr} {s s' : State} (hi : i.port = .pk) (hj : j.port = .up) (h : AgreeWhereLive s s') :
    ∃ a b t t', exec i s = .next a ∧ exec j a = .next t ∧ exec j s' = .next b ∧ exec i b = .next t' ∧
      AgreeWhereLive t t' := by
  obtain ⟨a, ha, hap⟩ := exec_next i s
  obtain ⟨t, ht, htp⟩ := exec_next j a
  obtain ⟨b, hb, hbp⟩ := exec_next j s'
  obtain ⟨t', ht', htp'⟩ := exec_next i b
  have hpk : a.pk.AgreeWhereLive t'.pk := exec_packer_agree ha ht' (exec_pk_of_port_up hj hb ▸ h.pk)
  have hup : t.up.AgreeWhereLive b.up := exec_unpacker_agree ht hb (exec_up_of_port_pk hi ha ▸ h.up)
  refine ⟨a, b, t, t', ha, ht, hb, ht', ?_, exec_pk_of_port_up hj ht ▸ hpk, exec_up_of_port_pk hi ht' ▸ hup⟩
  rw [htp', hbp, h.pending, htp, hap]

/-- Settles O56: a commuting pair of words, and the independence under reset at inputs that are words only, where a unit's
own words leave the other unit as it was. -/
theorem unitsRunIndependently : Obligations.UnitsRunIndependently := by
  refine ⟨fun i j s s' hi hj h => exec_commute hi hj h, fun s p u ws hpk hup => ?_⟩
  obtain ⟨t, tp, tu, ht, htp, htu, hpk', hup'⟩ := unitsRunIndependentlyUnderReset s p u (ws.map .cmd) hpk hup
  rw [List.length_map] at ht
  rw [filter_actsOnPacker_cmd, List.length_map] at htp
  rw [filter_actsOnUnpacker_cmd, List.length_map] at htu
  have htp_up : tp.up = p.up := steps_up_of_port_pk (fun w hw => by simpa using List.of_mem_filter hw) htp
  have htu_pk : tu.pk = u.pk := steps_pk_of_port_up (fun w hw => by simpa using List.of_mem_filter hw) htu
  exact ⟨t, tp, tu, ht, htp, htu, hpk', htp_up ▸ .refl p.up, hup', htu_pk ▸ .refl u.pk⟩

/-! ### The bits of the packed buffer (R30) -/

/-- Two codes are packed as the three bytes of their triple (R47, R74). -/
theorem pack_cons_cons (c1 c2 : Code) (rest : List Code) :
    pack (c1 :: c2 :: rest) = byte0Of c1 :: byte1Of c1 c2 :: byte2Of c2 :: pack rest := by
  rw [pack, wordBytes_tripleWord]
  rfl

/-- A lone last code is packed as the pair with the virtual code 0 (R50, R74). -/
theorem pack_singleton (c : Code) : pack [c] = pack [c, Config.padCode] :=
  (List.append_nil _).symm

/-- Buffer bit `8*j + k` is bit `7-k` of byte j (R30). -/
theorem bufferBit_byte (bs : List Byte) {n j k : Nat} (hn : n = 8 * j + k) (hk : k < 8) :
    bufferBit bs n = (bs.getD j 0).getLsbD (7 - k) := by
  have hdiv : n / 8 = j := by omega
  have hmod : n % 8 = k := by omega
  simp [bufferBit, hdiv, hmod, BitVec.getMsbD_eq_getLsbD, hk]

/-- Buffer bits 0 to 11 are the first code of the first triple: byte0, then the high half of byte1. -/
theorem bufferBit_triple_fst (c1 c2 : Code) (bs : List Byte) {m : Nat} (hm : m < 12) :
    bufferBit (byte0Of c1 :: byte1Of c1 c2 :: byte2Of c2 :: bs) m = c1.getLsbD (11 - m) := by
  by_cases h : m < 8
  · calc bufferBit (byte0Of c1 :: byte1Of c1 c2 :: byte2Of c2 :: bs) m
      _ = (byte0Of c1).getLsbD (7 - m) := bufferBit_byte _ (j := 0) (by omega) h
      _ = c1.getLsbD (4 + (7 - m)) := by
        rw [getLsbD_byte0Of, decide_eq_true (by omega), Bool.true_and]
      _ = c1.getLsbD (11 - m) := by congr 1; omega
  · calc bufferBit (byte0Of c1 :: byte1Of c1 c2 :: byte2Of c2 :: bs) m
      _ = (byte1Of c1 c2).getLsbD (7 - (m - 8)) := bufferBit_byte _ (j := 1) (by omega) (by omega)
      _ = c1.getLsbD (7 - (m - 8) - 4) := by
        rw [getLsbD_byte1Of, if_neg (by omega), decide_eq_true (by omega), Bool.true_and]
      _ = c1.getLsbD (11 - m) := by congr 1; omega

/-- Buffer bits 12 to 23 are the second code of the first triple: the low half of byte1, then byte2. -/
theorem bufferBit_triple_snd (c1 c2 : Code) (bs : List Byte) {m : Nat} (hm : m < 12) :
    bufferBit (byte0Of c1 :: byte1Of c1 c2 :: byte2Of c2 :: bs) (12 + m) = c2.getLsbD (11 - m) := by
  by_cases h : m < 4
  · calc bufferBit (byte0Of c1 :: byte1Of c1 c2 :: byte2Of c2 :: bs) (12 + m)
      _ = (byte1Of c1 c2).getLsbD (7 - (4 + m)) := bufferBit_byte _ (j := 1) (by omega) (by omega)
      _ = c2.getLsbD (8 + (7 - (4 + m))) := by rw [getLsbD_byte1Of, if_pos (by omega)]
      _ = c2.getLsbD (11 - m) := by congr 1; omega
  · calc bufferBit (byte0Of c1 :: byte1Of c1 c2 :: byte2Of c2 :: bs) (12 + m)
      _ = (byte2Of c2).getLsbD (7 - (m - 4)) := bufferBit_byte _ (j := 2) (by omega) (by omega)
      _ = c2.getLsbD (7 - (m - 4)) := by
        rw [getLsbD_byte2Of, decide_eq_true (by omega), Bool.true_and]
      _ = c2.getLsbD (11 - m) := by congr 1; omega

/-- From buffer bit 24 on, the buffer is that of the triples after the first. -/
theorem bufferBit_triple_rest (c1 c2 : Code) (bs : List Byte) (n : Nat) :
    bufferBit (byte0Of c1 :: byte1Of c1 c2 :: byte2Of c2 :: bs) (24 + n) = bufferBit bs n := by
  have hdiv : (24 + n) / 8 = n / 8 + 3 := by omega
  have hmod : (24 + n) % 8 = n % 8 := by omega
  simp [bufferBit, hdiv, hmod]

/-- Buffer bit `12*i + m` is bit `11-m` of code i, where the codes past the last are taken as 0: that covers the padding
and the bits beyond the buffer. -/
theorem bufferBit_pack (cs : List Code) (i : Nat) {m : Nat} (hm : m < 12) :
    bufferBit (pack cs) (12 * i + m) = (cs.getD i 0).getLsbD (11 - m) := by
  match cs, i with
  | [], i => simp [pack, bufferBit]
  | [c], 0 => simp [pack_singleton, pack_cons_cons, bufferBit_triple_fst c _ _ hm]
  | [c], 1 => simp [pack_singleton, pack_cons_cons, bufferBit_triple_snd c _ _ hm, Config.padCode]
  | [c], i + 2 =>
    have hnext : 12 * (i + 2) + m = 24 + (12 * i + m) := by omega
    simp [pack_singleton, pack_cons_cons, hnext, bufferBit_triple_rest, bufferBit_pack [] i hm]
  | c1 :: c2 :: rest, 0 => simp [pack_cons_cons, bufferBit_triple_fst c1 _ _ hm]
  | c1 :: c2 :: rest, 1 => simp [pack_cons_cons, bufferBit_triple_snd c1 _ _ hm]
  | c1 :: c2 :: rest, i + 2 =>
    have hnext : 12 * (i + 2) + m = 24 + (12 * i + m) := by omega
    simp [pack_cons_cons, hnext, bufferBit_triple_rest, bufferBit_pack rest i hm]

/-- Three bytes for every two codes, a lone last code counted as two. -/
theorem length_pack (cs : List Code) : (pack cs).length = 3 * ((cs.length + 1) / 2) := by
  match cs with
  | [] => rfl
  | [c] => simp [pack, paddedWord]
  | c1 :: c2 :: rest =>
    simp only [pack_cons_cons, List.length_cons, length_pack rest]
    omega

/-- Settles O55: the bits of the codes, of the code 0 after an odd number of them, and the buffer's length. -/
theorem bufferBitsOfTheCodes : Obligations.BufferBitsOfTheCodes := by
  intro cs
  refine ⟨fun i m c hc hm => ?_, fun _ m hm => ?_, ?_⟩
  · rw [bufferBit_pack cs i hm, List.getD_eq_getElem?_getD, hc, Option.getD_some]
  · rw [bufferBit_pack cs cs.length hm]
    simp
  · rw [length_pack]
    omega

end Sys2Proof.Machine

/-! The statements of spec/30_encoding.md: decoding and encoding of the command words (R43, R46, R53, R54, R56), the
assembler (R54, R55), and the layout of two codes in three bytes (R47 to R51). -/

namespace Sys2Proof.Machine

/-! ### The decoder, row by row (R46) -/

theorem decode_pcmd_nop (x : BitVec 12) : decode (.pcmd (0b00#2 ++ x)) = .pNop := by
  rw [decode, decodeP, pOp_append, if_pos rfl]

theorem decode_pcmd_push (x : BitVec 12) : decode (.pcmd (0b01#2 ++ x)) = .pPush x := by
  rw [decode, decodeP, pOp_append, pCode_append, if_neg (by decide), if_pos rfl]

theorem decode_pcmd_end (x : BitVec 12) : decode (.pcmd (0b10#2 ++ x)) = .pEnd := by
  rw [decode, decodeP, pOp_append, if_neg (by decide), if_neg (by decide), if_pos rfl]

theorem decode_pcmd_clr (x : BitVec 12) : decode (.pcmd (0b11#2 ++ x)) = .pClr := by
  rw [decode, decodeP, pOp_append, if_neg (by decide), if_neg (by decide), if_neg (by decide)]

theorem decode_ucmd_nop (x : BitVec 8) : decode (.ucmd (0b00#2 ++ x)) = .uNop := by
  rw [decode, decodeU, uOp_append, if_pos rfl]

theorem decode_ucmd_push (x : BitVec 8) : decode (.ucmd (0b01#2 ++ x)) = .uPush x := by
  rw [decode, decodeU, uOp_append, uByte_append, if_neg (by decide), if_pos rfl]

theorem decode_ucmd_end (x : BitVec 8) : decode (.ucmd (0b10#2 ++ x)) = .uEnd := by
  rw [decode, decodeU, uOp_append, if_neg (by decide), if_neg (by decide), if_pos rfl]

theorem decode_ucmd_clr (x : BitVec 8) : decode (.ucmd (0b11#2 ++ x)) = .uClr := by
  rw [decode, decodeU, uOp_append, if_neg (by decide), if_neg (by decide), if_neg (by decide)]

/-! ### Every word is one of the rows' words (R43, R46) -/

/-- A PCMD word is its operation field over its operand field (R44). -/
theorem exists_pcmd_append (w : PWord) : ∃ (op : BitVec 2) (x : BitVec 12), w = op ++ x :=
  ⟨pOp w, pCode w, (append_of_extract (m := 2) (n := 12) w).symm⟩

/-- A UCMD word is its operation field over its operand field (R45). -/
theorem exists_ucmd_append (w : UWord) : ∃ (op : BitVec 2) (x : BitVec 8), w = op ++ x :=
  ⟨uOp w, uByte w, (append_of_extract (m := 2) (n := 8) w).symm⟩

/-! ### Decoding against encoding -/

/-- Decoding undoes encoding, at every operand (R46, R54). -/
@[simp] theorem decode_encode (i : Instr) : decode (encode i) = i := by
  cases i with
  | pNop => exact decode_pcmd_nop 0#12
  | pPush c => exact decode_pcmd_push c
  | pEnd => exact decode_pcmd_end 0#12
  | pClr => exact decode_pcmd_clr 0#12
  | uNop => exact decode_ucmd_nop 0#8
  | uPush b => exact decode_ucmd_push b
  | uEnd => exact decode_ucmd_end 0#8
  | uClr => exact decode_ucmd_clr 0#8

/-- Settles O30: the port is right because decoding keeps it and gives the instruction back. -/
theorem decodeEncodeRoundTrip : Obligations.DecodeEncodeRoundTrip := by
  intro i
  have hport : (encode i).port = (decode (encode i)).port := (decode_port _).symm
  exact ⟨decode_encode i, hport.trans (congrArg Instr.port (decode_encode i))⟩

/-- Encoding the decoded word keeps the operation field, and puts a zero operand field where the word's own is ignored
(R53, R54). -/
theorem encode_decode_pcmd (op : BitVec 2) (x : BitVec 12) :
    encode (decode (.pcmd (op ++ x))) = .pcmd (op ++ if op = 0b01#2 then x else 0#12) := by
  rcases op_cases op with rfl | rfl | rfl | rfl
  · rw [decode_pcmd_nop]; rfl
  · rw [decode_pcmd_push]; rfl
  · rw [decode_pcmd_end]; rfl
  · rw [decode_pcmd_clr]; rfl

/-- Encoding the decoded word keeps the operation field, and puts a zero operand field where the word's own is ignored
(R53, R54). -/
theorem encode_decode_ucmd (op : BitVec 2) (x : BitVec 8) :
    encode (decode (.ucmd (op ++ x))) = .ucmd (op ++ if op = 0b01#2 then x else 0#8) := by
  rcases op_cases op with rfl | rfl | rfl | rfl
  · rw [decode_ucmd_nop]; rfl
  · rw [decode_ucmd_push]; rfl
  · rw [decode_ucmd_end]; rfl
  · rw [decode_ucmd_clr]; rfl

/-- Settles O31: every word is an operation field over an operand field. -/
theorem encodeOfDecodeIsCanonical : Obligations.EncodeOfDecodeIsCanonical := by
  refine ⟨fun w => ?_, fun w => ?_⟩
  · obtain ⟨op, x, rfl⟩ := exists_pcmd_append w
    rw [encode_decode_pcmd, extract_high, apply_ite (op ++ ·)]
  · obtain ⟨op, x, rfl⟩ := exists_ucmd_append w
    rw [encode_decode_ucmd, extract_high, apply_ite (op ++ ·)]

/-! ### The opcode table (R56) -/

theorem mask_of_port_pk : ∀ r ∈ opcodeRows, r.port = .pk → r.mask = 0x3000 := by decide

theorem mask_of_port_up : ∀ r ∈ opcodeRows, r.port = .up → r.mask = 0x300 := by decide

/-- The rows a PCMD word fits are told by its operation field alone. -/
theorem fits_pcmd {r : OpcodeRow} (hr : r ∈ opcodeRows) (op : BitVec 2) (x : BitVec 12) :
    r.fits (.pcmd (op ++ x)) = (decide (r.port = .pk) && decide (op.toNat * 0x1000 = r.pattern)) := by
  cases hport : r.port with
  | pk => rw [OpcodeRow.fits, CommandWord.value, CommandWord.port, mask_of_port_pk r hr hport, masked_pcmd, hport]
  | up => simp [OpcodeRow.fits, CommandWord.port, hport]

/-- The rows a UCMD word fits are told by its operation field alone. -/
theorem fits_ucmd {r : OpcodeRow} (hr : r ∈ opcodeRows) (op : BitVec 2) (x : BitVec 8) :
    r.fits (.ucmd (op ++ x)) = (decide (r.port = .up) && decide (op.toNat * 0x100 = r.pattern)) := by
  cases hport : r.port with
  | up => rw [OpcodeRow.fits, CommandWord.value, CommandWord.port, mask_of_port_up r hr hport, masked_ucmd, hport]
  | pk => simp [OpcodeRow.fits, CommandWord.port, hport]

/-- A word fits the rows that the canonical word of its instruction fits: the two have one operation field. -/
theorem fits_encode_decode {r : OpcodeRow} (hr : r ∈ opcodeRows) (w : CommandWord) :
    r.fits (encode (decode w)) = r.fits w := by
  cases w with
  | pcmd w =>
    obtain ⟨op, x, rfl⟩ := exists_pcmd_append w
    rw [encode_decode_pcmd, fits_pcmd hr, fits_pcmd hr]
  | ucmd w =>
    obtain ⟨op, x, rfl⟩ := exists_ucmd_append w
    rw [encode_decode_ucmd, fits_ucmd hr, fits_ucmd hr]

/-- Every instruction's canonical word fits the one row of its mnemonic. -/
theorem encodedWordFitsItsRow (i : Instr) : Laws.EncodedWordFitsItsRow.Statement i := by
  cases i with
  | pNop => exact Laws.EncodedWordFitsItsRow.pNop
  | pPush c => exact Laws.EncodedWordFitsItsRow.pPush c
  | pEnd => exact Laws.EncodedWordFitsItsRow.pEnd
  | pClr => exact Laws.EncodedWordFitsItsRow.pClr
  | uNop => exact Laws.EncodedWordFitsItsRow.uNop
  | uPush b => exact Laws.EncodedWordFitsItsRow.uPush b
  | uEnd => exact Laws.EncodedWordFitsItsRow.uEnd
  | uClr => exact Laws.EncodedWordFitsItsRow.uClr

/-- Settles O32: the word fits the rows that the canonical word of its instruction fits, which are the one row of the
mnemonic. -/
theorem exactlyOneOpcodeRowMatches : Obligations.ExactlyOneOpcodeRowMatches := by
  intro w
  rw [← List.filter_congr fun r hr => fits_encode_decode hr w]
  exact encodedWordFitsItsRow (decode w)

/-! ### Words written out -/

/-- Settles O34: closed words, decoded by evaluation. -/
theorem wordsOfTheSpecDecode : Obligations.WordsOfTheSpecDecode := by
  unfold Obligations.WordsOfTheSpecDecode
  decide

/-! ### The assembler (R54, R55) -/

theorem assemble_of_wellFormed {l : ScriptLine} (h : l.wellFormed = true) :
    assemble l = .words (l.expand.map encode) :=
  if_pos h

theorem assemble_of_not_wellFormed {l : ScriptLine} (h : ¬ l.wellFormed = true) : assemble l = .refused l.error :=
  if_neg h

theorem codeInRange_iff (c : Int) : codeInRange c = true ↔ 0 ≤ c ∧ c ≤ 4095 := by
  simp [codeInRange]

theorem byteInRange_iff (b : Int) : byteInRange b = true ↔ 0 ≤ b ∧ b ≤ 255 := by
  simp [byteInRange]

/-- The word of P.PUSH over a number in range is the operation plus the number. -/
theorem encode_pPush_ofInt {c : Int} (h : 0 ≤ c ∧ c ≤ 4095) :
    encode (.pPush (BitVec.ofInt 12 c)) = .pcmd (BitVec.ofNat 14 (0x1000 + c.toNat)) := by
  refine congrArg CommandWord.pcmd (BitVec.eq_of_toNat_eq ((toNat_concat _ _).trans ?_))
  simp only [BitVec.toNat_ofNat, BitVec.toNat_ofInt]
  omega

/-- The word of U.PUSH over a number in range is the operation plus the number. -/
theorem encode_uPush_ofInt {b : Int} (h : 0 ≤ b ∧ b ≤ 255) :
    encode (.uPush (BitVec.ofInt 8 b)) = .ucmd (BitVec.ofNat 10 (0x100 + b.toNat)) := by
  refine congrArg CommandWord.ucmd (BitVec.eq_of_toNat_eq ((toNat_concat _ _).trans ?_))
  simp only [BitVec.toNat_ofNat, BitVec.toNat_ofInt]
  omega

theorem codeInRange_toNat (c : Code) : codeInRange (c.toNat : Int) = true := by
  rw [codeInRange_iff]
  omega

theorem byteInRange_toNat (b : Byte) : byteInRange (b.toNat : Int) = true := by
  rw [byteInRange_iff]
  omega

/-- Settles O35: a PUSH line is well formed exactly when its operand is in range. -/
theorem assemblerRefusesOutOfRange : Obligations.AssemblerRefusesOutOfRange := by
  refine ⟨fun c => ?_, fun b => ?_, rfl, rfl, rfl, rfl, rfl, rfl⟩
  · split_ifs with h
    · rw [assemble_of_wellFormed (l := .pPush c) ((codeInRange_iff c).2 h), ScriptLine.expand,
        List.map_singleton, encode_pPush_ofInt h]
    · exact assemble_of_not_wellFormed (mt (codeInRange_iff c).1 h)
  · split_ifs with h
    · rw [assemble_of_wellFormed (l := .uPush b) ((byteInRange_iff b).2 h), ScriptLine.expand,
        List.map_singleton, encode_uPush_ofInt h]
    · exact assemble_of_not_wellFormed (mt (byteInRange_iff b).1 h)

/-- Settles O36: the operands of these lines are codes or bytes, so the lines are well formed, and their numbers read
back as what they were written from. -/
theorem pseudoOperationExpansion : Obligations.PseudoOperationExpansion := by
  refine ⟨fun cs => ?_, fun bs => ?_⟩
  · rw [assemble_of_wellFormed (by simp [ScriptLine.wellFormed, codeInRange_toNat])]
    simp [ScriptLine.expand, packExpansion, Function.comp_def, encode]
  · rw [assemble_of_wellFormed (by simp [ScriptLine.wellFormed, byteInRange_toNat])]
    simp [ScriptLine.expand, unpackExpansion, Function.comp_def, encode]

/-! ### The two directions of the layout are inverse (R48) -/

@[simp] theorem byte0Of_code1Of (b0 b1 : Byte) : byte0Of (code1Of b0 b1) = b0 := extract_high b0 _

@[simp] theorem byte1Of_codes (b0 b1 b2 : Byte) : byte1Of (code1Of b0 b1) (code2Of b1 b2) = b1 := by
  have hhigh : (code1Of b0 b1).extractLsb' 0 4 = b1.extractLsb' 4 4 := extract_low b0 _
  have hlow : (code2Of b1 b2).extractLsb' 8 4 = b1.extractLsb' 0 4 := extract_high _ b2
  rw [byte1Of, hhigh, hlow]
  exact append_of_extract (m := 4) (n := 4) b1

@[simp] theorem byte2Of_code2Of (b1 b2 : Byte) : byte2Of (code2Of b1 b2) = b2 := extract_low _ b2

@[simp] theorem code1Of_bytes (c1 c2 : Code) : code1Of (byte0Of c1) (byte1Of c1 c2) = c1 := by
  have hhigh : (byte1Of c1 c2).extractLsb' 4 4 = c1.extractLsb' 0 4 := extract_high _ _
  rw [code1Of, hhigh]
  exact append_of_extract (m := 8) (n := 4) c1

@[simp] theorem code2Of_bytes (c1 c2 : Code) : code2Of (byte1Of c1 c2) (byte2Of c2) = c2 := by
  have hlow : (byte1Of c1 c2).extractLsb' 0 4 = c2.extractLsb' 8 4 := extract_low _ _
  rw [code2Of, hlow]
  exact append_of_extract (m := 4) (n := 8) c2

/-- Settles O33: a word decodes like the canonical word of its instruction, whose ignored field is zero; and the pair
read from a triple has that triple, and is the only one since reading the triple of any pair gives that pair. -/
theorem ignoredFieldsAndLegalData : Obligations.IgnoredFieldsAndLegalData := by
  refine ⟨fun op x hop => ?_, fun op x hop => ?_, decode_pcmd_push, decode_ucmd_push, fun b0 b1 b2 => ?_⟩
  · rw [← decode_encode (decode (.pcmd (op ++ x))), encode_decode_pcmd, if_neg hop]
  · rw [← decode_encode (decode (.ucmd (op ++ x))), encode_decode_ucmd, if_neg hop]
  · refine ⟨code1Of b0 b1, code2Of b1 b2, ⟨byte0Of_code1Of _ _, byte1Of_codes _ _ _, byte2Of_code2Of _ _⟩, ?_⟩
    rintro d1 d2 ⟨rfl, rfl, rfl⟩
    exact ⟨(code1Of_bytes d1 d2).symm, (code2Of_bytes d1 d2).symm⟩

/-! ### The document's integer formulas (R47, R48) -/

/-- A number shifted over a smaller one, as the document joins two fields. -/
theorem shiftLeft_or_eq_mul_add {b n : Nat} (h : b < 2 ^ n) (a : Nat) : a <<< n ||| b = a * 2 ^ n + b := by
  rw [← Nat.shiftLeft_add_eq_or_of_lt h, Nat.shiftLeft_eq]

theorem tripleFormula_eq (c1 : Nat) {c2 : Nat} (h : c2 < 4096) :
    tripleFormula c1 c2 = (c1 / 16, c1 % 16 * 16 + c2 / 256, c2 % 256) := by
  have hlow : c2 >>> 8 < 2 ^ 4 := by
    rw [Nat.shiftRight_eq_div_pow]
    omega
  rw [tripleFormula, shiftLeft_or_eq_mul_add hlow, Nat.shiftRight_eq_div_pow, Nat.shiftRight_eq_div_pow,
    Nat.and_two_pow_sub_one_eq_mod c1 4, Nat.and_two_pow_sub_one_eq_mod c2 8]
  rfl

theorem pairFormula_eq (b0 : Nat) {b1 b2 : Nat} (h1 : b1 < 256) (h2 : b2 < 256) :
    pairFormula b0 b1 b2 = (b0 * 16 + b1 / 16, b1 % 16 * 256 + b2) := by
  have hlow : b1 >>> 4 < 2 ^ 4 := by
    rw [Nat.shiftRight_eq_div_pow]
    omega
  rw [pairFormula, shiftLeft_or_eq_mul_add hlow, shiftLeft_or_eq_mul_add (n := 8) h2, Nat.shiftRight_eq_div_pow,
    Nat.and_two_pow_sub_one_eq_mod b1 4]
  rfl

/-- Settles O37: both sides as numbers, and each bit by the law of its byte. -/
theorem pairToTripleLayout : Obligations.PairToTripleLayout := by
  intro c1 c2
  refine ⟨?_, fun k hk => ?_, fun k hk => ?_, fun k hk => ?_, fun k hk => ?_⟩
  · rw [tripleFormula_eq _ c2.isLt, toNat_byte0Of, toNat_byte1Of, toNat_byte2Of]
  · rw [getLsbD_byte0Of, decide_eq_true hk, Bool.true_and, Nat.add_comm]
  · rw [getLsbD_byte1Of, if_neg (by omega), Nat.add_sub_cancel, decide_eq_true hk, Bool.true_and]
  · rw [getLsbD_byte1Of, if_pos hk, Nat.add_comm]
  · rw [getLsbD_byte2Of, decide_eq_true hk, Bool.true_and]

/-- Concatenation in the document's 12-bit arithmetic: the more significant part shifted over the other. -/
theorem append_eq_shiftLeft_or {m n : Nat} (a : BitVec m) (b : BitVec n) :
    a ++ b = (a.setWidth (m + n) <<< n) ||| b.setWidth (m + n) := by
  rw [BitVec.append_def, BitVec.shiftLeftZeroExtend_eq, BitVec.setWidth'_eq]

theorem code1Of_eq_shift (b0 b1 : Byte) :
    code1Of b0 b1 = (b0.setWidth 12 <<< 4) ||| (b1 >>> 4).setWidth 12 := by
  have hlow : (b1.extractLsb' 4 4).setWidth 12 = (b1 >>> 4).setWidth 12 := by
    apply BitVec.eq_of_toNat_eq
    simp only [BitVec.toNat_setWidth, BitVec.extractLsb'_toNat, BitVec.toNat_ushiftRight, Nat.shiftRight_eq_div_pow]
    omega
  exact hlow ▸ append_eq_shiftLeft_or b0 (b1.extractLsb' 4 4)

theorem code2Of_eq_shift (b1 b2 : Byte) :
    code2Of b1 b2 = ((b1 &&& 0x0F#8).setWidth 12 <<< 8) ||| b2.setWidth 12 := by
  have hhigh : (b1.extractLsb' 0 4).setWidth 12 = (b1 &&& 0x0F#8).setWidth 12 := by
    apply BitVec.eq_of_toNat_eq
    simp only [BitVec.toNat_setWidth, BitVec.extractLsb'_toNat, BitVec.toNat_and, Nat.shiftRight_zero]
    exact congrArg (· % 2 ^ 12) (Nat.and_two_pow_sub_one_eq_mod b1.toNat 4).symm
  exact hhigh ▸ append_eq_shiftLeft_or (b1.extractLsb' 0 4) b2

/-- Settles O38: both sides as numbers and as shifted fields, and the laws that the directions are inverse. -/
theorem tripleToPairLayout : Obligations.TripleToPairLayout := by
  intro b0 b1 b2
  refine ⟨?_, code1Of_eq_shift b0 b1, code2Of_eq_shift b1 b2,
    ⟨byte0Of_code1Of _ _, byte1Of_codes _ _ _, byte2Of_code2Of _ _⟩,
    fun c1 c2 => ⟨code1Of_bytes c1 c2, code2Of_bytes c1 c2⟩⟩
  rw [pairFormula_eq _ b1.isLt b2.isLt, toNat_code1Of, toNat_code2Of]

/-! ### The 24 bits of a triple (R49) -/

/-- The triple word of a pair is the two codes one after the other. -/
theorem tripleWord_eq_append (c1 c2 : Code) : tripleWord c1 c2 = c1 ++ c2 := by
  apply BitVec.eq_of_toNat_eq
  have hleft : (tripleWord c1 c2).toNat =
      ((byte0Of c1).toNat * 2 ^ 8 + (byte1Of c1 c2).toNat) * 2 ^ 8 + (byte2Of c2).toNat := by
    rw [tripleWord, toNat_concat, toNat_concat]
  have hright : (c1 ++ c2).toNat = c1.toNat * 2 ^ 12 + c2.toNat := toNat_concat c1 c2
  rw [hleft, toNat_byte0Of, toNat_byte1Of, toNat_byte2Of]
  refine Eq.trans ?_ hright.symm
  omega

/-- The pair word of a pair's triple is its triple word. -/
theorem pairWord_bytes (c1 c2 : Code) :
    pairWord (byte0Of c1) (byte1Of c1 c2) (byte2Of c2) = tripleWord c1 c2 := by
  rw [pairWord, code1Of_bytes, code2Of_bytes, tripleWord_eq_append]

/-- The pair word of a triple is the three bytes one after the other. -/
theorem pairWord_eq_append (b0 b1 b2 : Byte) : pairWord b0 b1 b2 = b0 ++ b1 ++ b2 :=
  calc pairWord b0 b1 b2
    _ = tripleWord (code1Of b0 b1) (code2Of b1 b2) := (tripleWord_eq_append _ _).symm
    _ = b0 ++ b1 ++ b2 := by rw [tripleWord, byte0Of_code1Of, byte1Of_codes, byte2Of_code2Of]

/-- Settles O39: the three equations. -/
theorem tripleWordIsPairWord : Obligations.TripleWordIsPairWord :=
  ⟨tripleWord_eq_append, pairWord_eq_append, pairWord_bytes⟩

/-! ### Tails and full groups (R50, R51) -/

/-- Unpacking the triple of a pair gives the pair, before what the rest of the buffer gives. -/
theorem tripleCodes_bytes (c1 c2 : Code) (bs : List Byte) :
    tripleCodes (byte0Of c1 :: byte1Of c1 c2 :: byte2Of c2 :: bs) = c1 :: c2 :: tripleCodes bs := by
  rw [tripleCodes, wordCodes_pairWord, code1Of_bytes, code2Of_bytes]
  rfl

/-- Two codes come back from their triple (R48, R75). -/
theorem unpack_pack_pair (c1 c2 : Code) : unpack (pack [c1, c2]) = .codes [c1, c2] := by
  have hlen : (pack [c1, c2]).length % 3 = 0 := by simp [length_pack]
  rw [unpack, if_pos hlen, pack_cons_cons, tripleCodes_bytes]
  rfl

/-- Settles O40: a lone code is packed as the pair (c, 0), so what holds of pairs holds of it. -/
theorem paddedTriple : Obligations.PaddedTriple := by
  intro c
  refine ⟨?_, ?_, (pack_singleton c).symm⟩
  · rw [pack_singleton, pack_cons_cons]
    rfl
  · rw [pack_singleton, unpack_pack_pair, Config.padCode]

/-- Four codes one after the other are the triple words of the two pairs one after the other. -/
theorem group_eq_tripleWords (a b c d : Code) : a ++ b ++ c ++ d = tripleWord a b ++ tripleWord c d := by
  rw [tripleWord_eq_append, tripleWord_eq_append]
  exact BitVec.append_assoc

/-- The bytes of two output words are those of the words' concatenation, cut from the most significant end. -/
theorem wordBytes_append_wordBytes (t u : OutWord) :
    wordBytes t ++ wordBytes u = [40, 32, 24, 16, 8, 0].map fun k => (t ++ u).extractLsb' k 8 := by
  have hhigh (k : Nat) : (t ++ u).extractLsb' (24 + k) 8 = t.extractLsb' k 8 := by
    rw [BitVec.extractLsb'_append_eq_of_le (by omega), Nat.add_sub_cancel_left]
  have hlow {k : Nat} (hk : k + 8 ≤ 24) : (t ++ u).extractLsb' k 8 = u.extractLsb' k 8 :=
    BitVec.extractLsb'_append_eq_of_add_le hk
  simp [wordBytes, ← hhigh, ← hlow]

/-- Settles O41: a group's bytes are those of two pairs, and the 48-bit word is the two triple words, each cut into its
three bytes. -/
theorem fullGroup : Obligations.FullGroup := by
  intro a b c d
  refine ⟨?_, ?_, by simp [length_pack], by simp [length_pack], ?_⟩
  · rw [pack_cons_cons, pack_cons_cons]
    rfl
  · rw [group_eq_tripleWords]
    exact wordBytes_append_wordBytes (tripleWord a b) (tripleWord c d)
  · rw [pack_cons_cons, pack_cons_cons]
    rfl

end Sys2Proof.Machine

/-! The statements of spec/40_packer.md: what P.NOP, P.PUSH, P.END and P.CLR do and leave unchanged (R58 to R61), that
they complete and raise nothing (R62, R64), and that any number of steps completes (R62, R70, R105). -/

namespace Sys2Proof.Machine

/-! ### Completion (R62, R70, R105) -/

/-- Every step answers a next state, with the oldest input taken where one is presented. -/
theorem step_next (s : State) : ∃ t, step s = .next t ∧ t.pending = s.pending.drop 1 := by
  match hp : s.pending with
  | [] => exact ⟨s, step_of_idle hp, hp⟩
  | _ :: _ => exact step_takes hp

/-- Settles O3, by induction on the number of steps. -/
theorem stepsAlwaysComplete : Obligations.StepsAlwaysComplete := by
  intro n
  induction n with
  | zero => exact fun s => ⟨s, rfl, rfl⟩
  | succ n ih =>
    intro s
    obtain ⟨s', hs', hp'⟩ := step_next s
    obtain ⟨t, ht, hp⟩ := ih s'
    exact ⟨t, (steps_succ_of_step hs' n).trans ht, by rw [hp, hp', List.drop_drop, Nat.add_comm]⟩

/-! ### P.NOP (R58) -/

/-- Command words whose meaning changes no state change nothing together, but that they are taken. -/
theorem steps_of_words_changing_nothing {ws : List CommandWord} (hws : ∀ w ∈ ws, ∀ s, exec (decode w) s = .next s)
    (s : State) : steps ws.length (s.presenting (ws.map .cmd)) = .next s := by
  induction ws with
  | nil => rfl
  | cons w ws ih =>
    obtain ⟨hw, hws⟩ := List.forall_mem_cons.1 hws
    have hstep : step (s.presenting ((w :: ws).map .cmd)) = .next (s.presenting (ws.map .cmd)) :=
      (step_of_cmd rfl).trans (hw _)
    exact (steps_succ_of_step hstep _).trans (ih hws)

theorem exec_pNop (s : State) : exec .pNop s = .next s := rfl

/-- Settles O7: one P.NOP answers the state it finds, so a list of them does. -/
theorem pNopDoesNothing : Obligations.PNopDoesNothing := by
  refine ⟨decode_pcmd_nop, fun s => ⟨s, exec_pNop s, .refl s⟩, fun s ws hws => ⟨s, ?_, .refl s⟩⟩
  exact steps_of_words_changing_nothing (fun w hw s => hws w hw ▸ exec_pNop s) s

/-! ### P.PUSH (R59) -/

/-- The P.PUSH words as numbers: the operation code in bits 13 and 12, the code below (R44, R46). -/
theorem pPush_word_eq (c : Code) : 0x1000#14 ||| c.setWidth 14 = 0b01#2 ++ c :=
  (append_eq_shiftLeft_or 0b01#2 c).symm

/-- Emitting the triple of a pair and lowering `PK.FULL`, as the fields written (R13, R47, R49). -/
theorem setFull_emitTriple_tripleWord (v : Bool) (c1 c2 : Code) (s : State) :
    setFull v (emitTriple (tripleWord c1 c2) s) =
      { s with pk := { s.pk with full := v, out := s.pk.out ++ [byte0Of c1, byte1Of c1 c2, byte2Of c2] } } := by
  rw [setFull, emitTriple, wordBytes_tripleWord]

/-- Settles O8, by whether a code is held. -/
theorem pPushPairsCodes : Obligations.PPushPairsCodes := by
  refine ⟨fun c => by rw [pPush_word_eq, decode_pcmd_push], fun s c => ?_⟩
  cases hfull : s.pk.full with
  | false => exact ⟨_, execPPush_of_empty hfull, .refl _⟩
  | true =>
    refine ⟨_, execPPush_of_full hfull, ?_⟩
    rw [setFull_emitTriple_tripleWord]
    exact .refl _

/-! ### P.END (R60) -/

/-- byte1 of a lone code's triple: the code's low four bits over zeros (R50). -/
theorem byte1Of_padCode (c : Code) : byte1Of c Config.padCode = c.extractLsb' 0 4 ++ 0b0000#4 := rfl

/-- byte2 of a lone code's triple is zero (R50). -/
theorem byte2Of_padCode : byte2Of Config.padCode = 0x00#8 := rfl

/-- Settles O9, by whether a code is held. -/
theorem pEndFlushesTheTail : Obligations.PEndFlushesTheTail := by
  refine ⟨decode_pcmd_end, fun s => ?_⟩
  cases hfull : s.pk.full with
  | false => exact ⟨s, execPEnd_of_empty hfull, .refl s⟩
  | true =>
    refine ⟨_, execPEnd_of_full hfull, ?_⟩
    rw [paddedWord, setFull_emitTriple_tripleWord, byte1Of_padCode, byte2Of_padCode]
    exact .refl _

/-! ### P.CLR (R61) -/

/-- With `PK.FULL = 0`, lowering it changes nothing. -/
theorem setFull_false_of_empty {s : State} (h : s.pk.full = false) : setFull false s = s := by
  rw [setFull, ← h]

/-- Settles O10: P.END emits nothing with no code held, and three bytes that P.CLR does not emit with one held. -/
theorem pClrAbandonsTheSequence : Obligations.PClrAbandonsTheSequence := by
  refine ⟨decode_pcmd_clr, fun s => ?_⟩
  cases hfull : s.pk.full with
  | false =>
    refine ⟨_, s, rfl, execPEnd_of_empty hfull, .refl _, fun _ => ?_, ?_⟩ <;> simp [setFull_false_of_empty hfull]
  | true =>
    refine ⟨_, _, rfl, execPEnd_of_full hfull, .refl _, nofun, iff_of_true (fun hagree => ?_) rfl⟩
    have hout : s.pk.out ++ wordBytes (paddedWord s.pk.hold) = s.pk.out := hagree.pk.out
    simp [wordBytes] at hout

/-! ### The four words together (R62, R64) -/

/-- Settles O11: the words do not write the unpacker, which holds `UP.ERR` and gives the cause code. -/
theorem packerNeverRaises : Obligations.PackerNeverRaises := by
  intro i s hi
  obtain ⟨t, ht, -, hup, -⟩ := exec_of_port_pk hi s
  exact ⟨t, ht, by rw [hup], by rw [causeCode, causeCode, hup]⟩

/-- What the packer's words leave of the packer: `PK.HOLD` but for a P.PUSH that finds no code held, and `PK.OUT` but for
a P.PUSH or P.END that finds one (R58 to R61). -/
theorem exec_packer_frame {i : Instr} {s t : State} (hi : i.port = .pk) (h : exec i s = .next t) :
    (¬ (s.pk.full = false ∧ ∃ c, i = .pPush c) → t.pk.hold = s.pk.hold) ∧
      (¬ (s.pk.full = true ∧ (i = .pEnd ∨ ∃ c, i = .pPush c)) → t.pk.out = s.pk.out) := by
  cases i with
  | pNop | pClr => cases h; exact ⟨fun _ => rfl, fun _ => rfl⟩
  | pPush c =>
    cases hfull : s.pk.full with
    | false =>
      obtain rfl := next_unique (execPPush_of_empty hfull) h
      exact ⟨fun hno => absurd ⟨rfl, c, rfl⟩ hno, fun _ => rfl⟩
    | true =>
      obtain rfl := next_unique (execPPush_of_full hfull) h
      exact ⟨fun _ => rfl, fun hno => absurd ⟨rfl, .inr ⟨c, rfl⟩⟩ hno⟩
  | pEnd =>
    cases hfull : s.pk.full with
    | false =>
      obtain rfl := next_unique (execPEnd_of_empty hfull) h
      exact ⟨fun _ => rfl, fun _ => rfl⟩
    | true =>
      obtain rfl := next_unique (execPEnd_of_full hfull) h
      exact ⟨fun _ => rfl, fun hno => absurd ⟨rfl, .inl rfl⟩ hno⟩
  | uNop | uPush _ | uEnd | uClr => cases hi

/-- Settles O12: the other unit and the inputs are left by every packer word, and the packer's own registers as its frame
says; that frame keeps `PK.HOLD` even where it is dead after the word. -/
theorem packerWordsFrame : Obligations.PackerWordsFrame := by
  intro i s t hi h
  obtain ⟨t', ht', hpending, hup, -⟩ := exec_of_port_pk hi s
  obtain rfl := next_unique h ht'
  obtain ⟨hhold, hout⟩ := exec_packer_frame hi h
  refine ⟨hup ▸ .refl s.up, hpending, fun _ => hhold, ?_, hout⟩
  rintro rfl
  rw [next_unique h (exec_pNop s)]

end Sys2Proof.Machine

/-! The statements of spec/41_unpacker.md: what U.NOP, U.PUSH, U.END and U.CLR do and leave unchanged (R66 to R69). -/

namespace Sys2Proof.Machine

/-! ### U.NOP (R66) -/

theorem exec_uNop (s : State) : exec .uNop s = .next s := rfl

/-- Settles O14: one U.NOP answers the state it finds, so a list of them does. -/
theorem uNopDoesNothing : Obligations.UNopDoesNothing := by
  refine ⟨decode_ucmd_nop, fun s => ⟨s, exec_uNop s, .refl s⟩, fun s ws hws => ⟨s, ?_, .refl s⟩⟩
  exact steps_of_words_changing_nothing (fun w hw s => hws w hw ▸ exec_uNop s) s

/-! ### U.PUSH (R67) -/

/-- The U.PUSH words as numbers: the operation code in bits 9 and 8, the byte below (R45, R46). -/
theorem uPush_word_eq (b : Byte) : 0x100#10 ||| b.setWidth 10 = 0b01#2 ++ b :=
  (append_eq_shiftLeft_or 0b01#2 b).symm

/-- Emitting the pair of a triple and writing the control, as the fields written (R17, R48, R49). -/
theorem setControl_emitPair_pairWord (k : UpControl) (b0 b1 b2 : Byte) (s : State) :
    setControl k (emitPair (pairWord b0 b1 b2) s) =
      { s with up := { s.up with ctl := k, out := s.up.out ++ [code1Of b0 b1, code2Of b1 b2] } } := by
  rw [setControl, emitPair, wordCodes_pairWord]

/-- Settles O15, by the five control states. -/
theorem uPushAssemblesTriples : Obligations.UPushAssemblesTriples := by
  refine ⟨fun b => by rw [uPush_word_eq, decode_ucmd_push], fun s b => ?_⟩
  rcases ctl_cases s.up with ⟨hctl, he, hc⟩ | ⟨hctl, he, hc⟩ | ⟨hctl, he, hc⟩ | ⟨hctl, he, -⟩ | ⟨hctl, he, -⟩ <;>
    rw [he]
  · exact ⟨_, execUPush_of_zero hctl, by rw [hc]; exact .refl _⟩
  · exact ⟨_, execUPush_of_one hctl, by rw [hc]; exact .refl _⟩
  · refine ⟨_, execUPush_of_two hctl, ?_⟩
    rw [hc, setControl_emitPair_pairWord, BitVec.extractLsb'_eq_self, BitVec.extractLsb'_eq_self]
    exact .refl _
  · exact ⟨_, execUPush_of_faulted hctl, .refl _⟩
  · exact ⟨_, execUPush_of_faulted hctl, .refl _⟩

/-! ### U.END (R68) -/

/-- U.END does nothing in the faulted unit or with no byte held. -/
theorem exec_uEnd_of_no_leftover {s : State} (h : errOf s.up = true ∨ cntOf s.up = 0#2) :
    exec .uEnd s = .next s := by
  rcases ctl_cases s.up with ⟨hctl, -⟩ | ⟨-, he, hc⟩ | ⟨-, he, hc⟩ | ⟨hctl, -⟩ | ⟨hctl, -⟩
  · exact execUEnd_of_zero hctl
  · simp [he, hc] at h
  · simp [he, hc] at h
  · exact execUEnd_of_faulted hctl
  · exact execUEnd_of_faulted hctl

/-- U.END raises FormatError with the count of the bytes it finds left over. -/
theorem exec_uEnd_of_leftover {s : State} (he : errOf s.up = false) (hc : cntOf s.up ≠ 0#2) :
    ∃ n, exec .uEnd s = .next (raiseFormatError n s) ∧ leftoverBits n = cntOf s.up := by
  rcases ctl_cases s.up with ⟨-, -, hc'⟩ | ⟨hctl, -, hc'⟩ | ⟨hctl, -, hc'⟩ | ⟨-, he', -⟩ | ⟨-, he', -⟩
  · exact absurd hc' hc
  · exact ⟨.one, execUEnd_of_one hctl, hc'.symm⟩
  · exact ⟨.two, execUEnd_of_two hctl, hc'.symm⟩
  · simp [he] at he'
  · simp [he] at he'

/-- U.END leaves the running unit faulted exactly when bytes were left over. -/
theorem exec_uEnd_errOf_iff {s : State} (he : errOf s.up = false) :
    ∃ t, exec .uEnd s = .next t ∧ (errOf t.up = true ↔ cntOf s.up ≠ 0#2) := by
  by_cases hc : cntOf s.up = 0#2
  · exact ⟨s, exec_uEnd_of_no_leftover (.inr hc), by simp [he, hc]⟩
  · obtain ⟨n, hn, -⟩ := exec_uEnd_of_leftover he hc
    exact ⟨_, hn, iff_of_true rfl hc⟩

/-- Steps after some that answer a next state go on from there. -/
theorem steps_add {m : Nat} {s t : State} (h : steps m s = .next t) (n : Nat) : steps (m + n) s = steps n t := by
  induction m generalizing s with
  | zero => rw [Nat.zero_add, next_unique (s := s) rfl h]
  | succ m ih =>
    obtain ⟨s', hs', -⟩ := step_next s
    rw [steps_succ_of_step hs'] at h
    rw [Nat.add_right_comm, steps_succ_of_step hs', ih h]

/-- A sequence's bytes, then a U.END: the unit ends faulted exactly when the bytes are no whole triples (R68). -/
theorem steps_then_uEnd_errOf_iff {s : State} {xs : List HostInput} {w : CommandWord} (hs : upInitial s)
    (hall : xs.all carriesBytes = true) (hw : decode w = .uEnd) :
    ∃ t, steps (xs.length + 1) (s.presenting (xs ++ [.cmd w])) = .next t ∧
      (errOf t.up = true ↔ (pushedBytes xs).length % 3 ≠ 0) := by
  have hsplit : s.presenting (xs ++ [.cmd w]) = (s.presenting [.cmd w]).presenting xs := by
    simp [State.presenting]
  obtain ⟨u, hu, herr, hcnt⟩ := cntIsBytesModuloThree (s.presenting [.cmd w]) xs hs hall
  obtain ⟨u', hu', hpending⟩ := stepsAlwaysComplete xs.length ((s.presenting [.cmd w]).presenting xs)
  obtain rfl := next_unique hu hu'
  have hp : u.pending = .cmd w :: s.pending := by simpa [State.presenting] using hpending
  obtain ⟨t, ht, hiff⟩ := exec_uEnd_errOf_iff (s := { u with pending := s.pending }) herr
  have hstep : step u = .next t := by rw [step_of_cmd hp, hw, ht]
  refine ⟨t, ?_, hiff.trans ?_⟩
  · rw [hsplit, steps_add hu, steps_succ_of_step hstep, steps]
  · have hzero : BitVec.ofNat 2 ((pushedBytes xs).length % 3) = 0#2 ↔ (pushedBytes xs).length % 3 = 0 := by
      rw [← BitVec.toNat_inj, BitVec.toNat_ofNat, BitVec.toNat_ofNat]
      omega
    exact not_congr (hcnt ▸ hzero)

/-- Settles O16: with no leftover the state is answered unchanged, with a leftover `UP.ERR` is raised over it. -/
theorem uEndChecksTheLength : Obligations.UEndChecksTheLength := by
  refine ⟨decode_ucmd_end, fun s => ⟨?_, ?_, fun _ _ => steps_then_uEnd_errOf_iff⟩⟩
  · exact fun h => ⟨s, exec_uEnd_of_no_leftover h, .refl s⟩
  · rintro ⟨he, hc⟩
    obtain ⟨n, hn, hleft⟩ := exec_uEnd_of_leftover he hc
    exact ⟨_, hn, rfl, hleft, rfl, fun _ => rfl, rfl, .refl s.pk, rfl⟩

/-! ### U.CLR and the fault (R69) -/

theorem exec_uClr (s : State) : exec .uClr s = .next (clearUnpacker s) := rfl

/-- In the initial condition there is nothing to clear. -/
theorem clearUnpacker_of_upInitial {s : State} (h : upInitial s) : clearUnpacker s = s := by
  rw [clearUnpacker, setControl, ← h]

/-- `USTAT` in the initial condition (R19). -/
theorem ustat_of_upInitial {s : State} (h : upInitial s) : ustat s = 0b000#3 := by
  rw [ustat, errOf_of_running h, cntOf_of_running h]
  rfl

/-- The faulted unit ignores every word of its port but U.CLR (R69, R95). -/
theorem exec_of_faulted {i : Instr} {s : State} (he : errOf s.up = true) (hi : i.port = .up) (hclr : i ≠ .uClr) :
    exec i s = .next s := by
  cases i with
  | uNop => exact exec_uNop s
  | uPush b =>
    match hctl : s.up.ctl with
    | .faulted _ => exact execUPush_of_faulted hctl
    | .running _ => simp [errOf_of_running hctl] at he
  | uEnd => exact exec_uEnd_of_no_leftover (.inl he)
  | uClr => exact absurd rfl hclr
  | pNop | pPush _ | pEnd | pClr => cases hi

/-- A command word other than U.CLR leaves the faulted unpacker as it was, whichever port it is presented on. -/
theorem exec_up_of_faulted {i : Instr} {s t : State} (he : errOf s.up = true) (hclr : i ≠ .uClr)
    (h : exec i s = .next t) : t.up = s.up := by
  cases hi : i.port with
  | pk => exact exec_up_of_port_pk hi h
  | up => rw [next_unique h (exec_of_faulted he hi hclr)]

/-- A step leaves the fault only by taking U.CLR or reset (R69, R96). -/
theorem step_leaves_fault {s t : State} (he : errOf s.up = true) (ht : step s = .next t) (he' : errOf t.up = false) :
    (∃ w rest, s.pending = .cmd w :: rest ∧ decode w = .uClr) ∨ ∃ p u rest, s.pending = .rst p u :: rest := by
  match hp : s.pending with
  | [] =>
    obtain rfl := next_unique (step_of_idle hp) ht
    simp [he] at he'
  | .cmd w :: rest =>
    by_cases hclr : decode w = .uClr
    · exact .inl ⟨w, rest, rfl, hclr⟩
    · rw [step_of_cmd hp] at ht
      have hup : t.up = s.up := exec_up_of_faulted (s := { s with pending := rest }) he hclr ht
      simp [hup, he] at he'
  | .rst p u :: rest => exact .inr ⟨p, u, rest, rfl⟩

/-- Settles O17: what U.CLR writes, and what the other words and reset do to a faulted unit. -/
theorem uClrClearsTheFault : Obligations.UClrClearsTheFault := by
  refine ⟨decode_ucmd_clr, fun s => ⟨?_, ?_, ?_⟩, fun _ _ => step_leaves_fault, ?_⟩
  · exact ⟨_, exec_uClr s, .refl _, rfl, rfl, ustat_of_upInitial rfl, rfl,
      fun h => by rw [clearUnpacker_of_upInitial h]⟩
  · exact fun i he hi hclr => ⟨s, exec_of_faulted he hi hclr, .refl s⟩
  · intro i hi
    obtain ⟨t, ht, -, hup, -⟩ := exec_of_port_pk hi s
    exact ⟨t, ht, hup ▸ .refl s.up⟩
  · exact fun s p u => ⟨_, step_of_rst rfl, rfl⟩

/-! ### The four words together (R66 to R69) -/

/-- What U.PUSH leaves of the unpacker: `UP.ERR`, and each register but in the control state whose row writes it
(R67, R70). -/
theorem exec_uPush_frame {b : Byte} {s t : State} (h : exec (.uPush b) s = .next t) :
    errOf t.up = errOf s.up ∧ (s.up.ctl ≠ .running .zero → t.up.b0 = s.up.b0) ∧
      (s.up.ctl ≠ .running .one → t.up.b1 = s.up.b1) ∧ (s.up.ctl ≠ .running .two → t.up.out = s.up.out) := by
  match hctl : s.up.ctl with
  | .faulted _ =>
    obtain rfl := next_unique (execUPush_of_faulted hctl) h
    exact ⟨rfl, fun _ => rfl, fun _ => rfl, fun _ => rfl⟩
  | .running .zero =>
    obtain rfl := next_unique (execUPush_of_zero hctl) h
    exact ⟨(errOf_of_running hctl).symm, absurd rfl, fun _ => rfl, fun _ => rfl⟩
  | .running .one =>
    obtain rfl := next_unique (execUPush_of_one hctl) h
    exact ⟨(errOf_of_running hctl).symm, fun _ => rfl, absurd rfl, fun _ => rfl⟩
  | .running .two =>
    obtain rfl := next_unique (execUPush_of_two hctl) h
    exact ⟨(errOf_of_running hctl).symm, fun _ => rfl, fun _ => rfl, absurd rfl⟩

/-- U.END keeps `UP.CNT` and writes no register but `UP.ERR` (R68, R93). -/
theorem exec_uEnd_frame {s t : State} (h : exec .uEnd s = .next t) :
    cntOf t.up = cntOf s.up ∧ t.up.b0 = s.up.b0 ∧ t.up.b1 = s.up.b1 ∧ t.up.out = s.up.out := by
  by_cases hidle : errOf s.up = true ∨ cntOf s.up = 0#2
  · rw [next_unique h (exec_uEnd_of_no_leftover hidle)]
    exact ⟨rfl, rfl, rfl, rfl⟩
  · obtain ⟨he, hc⟩ := not_or.1 hidle
    obtain ⟨n, hn, hleft⟩ := exec_uEnd_of_leftover (Bool.not_eq_true _ ▸ he) hc
    rw [next_unique h hn]
    exact ⟨hleft, rfl, rfl, rfl⟩

/-- Settles O18: the other unit and the inputs are left by every unpacker word, and the unpacker's own registers as the
frame of the word says; these frames keep `UP.B0` and `UP.B1` even where they are dead after the word. -/
theorem unpackerWordsFrame : Obligations.UnpackerWordsFrame := by
  intro i s t hi h
  obtain ⟨t', ht', hpending, hpk, -⟩ := exec_of_port_up hi s
  obtain rfl := next_unique h ht'
  refine ⟨hpk ▸ .refl s.pk, hpending, ?_⟩
  cases i with
  | uNop => obtain rfl := next_unique (exec_uNop s) h; simp
  | uPush b =>
    obtain ⟨herr, hb0, hb1, hout⟩ := exec_uPush_frame h
    exact ⟨fun _ hno => hb0 fun hctl => hno ⟨hctl, b, rfl⟩, fun _ hno => hb1 fun hctl => hno ⟨hctl, b, rfl⟩,
      by simp, fun _ => herr, fun hno => hout fun hctl => hno ⟨hctl, b, rfl⟩⟩
  | uEnd =>
    obtain ⟨hcnt, hb0, hb1, hout⟩ := exec_uEnd_frame h
    exact ⟨fun _ _ => hb0, fun _ _ => hb1, fun _ => hcnt, by simp, fun _ => hout⟩
  | uClr => obtain rfl := next_unique (exec_uClr s) h; simp
  | pNop | pPush _ | pEnd | pClr => cases hi

end Sys2Proof.Machine

/-! The statements of spec/42_sequences.md: the whole-sequence functions and their laws (R74, R75, R78 to R84), and the
runs of the two units that compute them (R76, R77, R109). -/

namespace Sys2Proof.Machine

/-! ### Lengths, two codes and three bytes at a time -/

theorem length_cons_cons_mod_two (c1 c2 : Code) (rest : List Code) :
    (c1 :: c2 :: rest).length % 2 = rest.length % 2 := Nat.add_mod_right _ 2

theorem length_cons_cons_cons_mod_three (b0 b1 b2 : Byte) (rest : List Byte) :
    (b0 :: b1 :: b2 :: rest).length % 3 = rest.length % 3 := Nat.add_mod_right _ 3

/-! ### The even completion of a sequence (R74) -/

theorem padEven_of_even {cs : List Code} (h : cs.length % 2 = 0) : padEven cs = cs := if_pos h

theorem padEven_of_odd {cs : List Code} (h : cs.length % 2 = 1) : padEven cs = cs ++ [0#12] := if_neg (by omega)

theorem padEven_cons_cons (c1 c2 : Code) (rest : List Code) :
    padEven (c1 :: c2 :: rest) = c1 :: c2 :: padEven rest := by
  rcases Nat.mod_two_eq_zero_or_one rest.length with h | h
  · rw [padEven_of_even h, padEven_of_even ((length_cons_cons_mod_two c1 c2 rest).trans h)]
  · rw [padEven_of_odd h, padEven_of_odd ((length_cons_cons_mod_two c1 c2 rest).trans h)]
    rfl

/-! ### The codes of a buffer's triples (R75) -/

theorem tripleCodes_cons_cons_cons (b0 b1 b2 : Byte) (rest : List Byte) :
    tripleCodes (b0 :: b1 :: b2 :: rest) = code1Of b0 b1 :: code2Of b1 b2 :: tripleCodes rest := by
  rw [tripleCodes, wordCodes_pairWord]
  rfl

/-- Fewer bytes than a triple give no code. -/
theorem tripleCodes_of_length_lt {bs : List Byte} (h : bs.length < 3) : tripleCodes bs = [] := by
  match bs with
  | [] | [_] | [_, _] => rfl
  | _ :: _ :: _ :: _ =>
    simp only [List.length_cons] at h
    omega

/-- Codes split after whole triples. -/
theorem tripleCodes_append {xs : List Byte} (h : xs.length % 3 = 0) (ys : List Byte) :
    tripleCodes (xs ++ ys) = tripleCodes xs ++ tripleCodes ys := by
  match xs with
  | [] => rfl
  | [_] | [_, _] => simp at h
  | b0 :: b1 :: b2 :: xs =>
    rw [length_cons_cons_cons_mod_three] at h
    simp [tripleCodes_cons_cons_cons, tripleCodes_append h ys]

/-- What is left of a buffer without its last one or two leftover bytes is whole triples (R77). -/
theorem length_take_whole (bs : List Byte) : (bs.take (bs.length - bs.length % 3)).length % 3 = 0 := by
  rw [List.length_take]
  omega

/-- The bytes left over after the last whole triple give no code (R77). -/
theorem tripleCodes_take_whole (bs : List Byte) :
    tripleCodes (bs.take (bs.length - bs.length % 3)) = tripleCodes bs := by
  have hleft : (bs.drop (bs.length - bs.length % 3)).length < 3 := by
    rw [List.length_drop]
    omega
  calc tripleCodes (bs.take (bs.length - bs.length % 3))
    _ = tripleCodes (bs.take (bs.length - bs.length % 3) ++ bs.drop (bs.length - bs.length % 3)) := by
      rw [tripleCodes_append (length_take_whole bs), tripleCodes_of_length_lt hleft, List.append_nil]
    _ = tripleCodes bs := by rw [List.take_append_drop]

theorem length_tripleCodes (bs : List Byte) : (tripleCodes bs).length = 2 * (bs.length / 3) := by
  match bs with
  | [] | [_] | [_, _] => simp [tripleCodes]
  | b0 :: b1 :: b2 :: rest =>
    simp only [tripleCodes_cons_cons_cons, List.length_cons, length_tripleCodes rest]
    omega

/-! ### The two functions are inverse (R80, R81) -/

/-- The triples of a packed sequence are its codes, and the virtual code 0 after an odd number of them. -/
theorem tripleCodes_pack (cs : List Code) : tripleCodes (pack cs) = padEven cs := by
  match cs with
  | [] => rfl
  | [c] =>
    rw [pack_singleton, pack_cons_cons, tripleCodes_bytes]
    rfl
  | c1 :: c2 :: rest => rw [pack_cons_cons, tripleCodes_bytes, tripleCodes_pack rest, padEven_cons_cons]

/-- Packing the codes of whole triples gives the triples back. -/
theorem pack_tripleCodes {bs : List Byte} (h : bs.length % 3 = 0) : pack (tripleCodes bs) = bs := by
  match bs with
  | [] => rfl
  | [_] | [_, _] => simp at h
  | b0 :: b1 :: b2 :: rest =>
    rw [length_cons_cons_cons_mod_three] at h
    rw [tripleCodes_cons_cons_cons, pack_cons_cons, byte0Of_code1Of, byte1Of_codes, byte2Of_code2Of,
      pack_tripleCodes h]

theorem length_pack_mod_three (cs : List Code) : (pack cs).length % 3 = 0 := by
  rw [length_pack, Nat.mul_mod_right]

theorem unpack_of_whole {bs : List Byte} (h : bs.length % 3 = 0) : unpack bs = .codes (tripleCodes bs) := if_pos h

/-- `unpack` succeeds on whole triples alone, with their codes (R75). -/
theorem unpack_eq_codes_iff (bs : List Byte) (cs : List Code) :
    unpack bs = .codes cs ↔ bs.length % 3 = 0 ∧ tripleCodes bs = cs := by
  unfold unpack
  split_ifs with h <;> simp [h]

theorem unpack_pack (cs : List Code) : unpack (pack cs) = .codes (padEven cs) := by
  rw [unpack_of_whole (length_pack_mod_three cs), tripleCodes_pack]

/-- The virtual code packs as the same code given (R50). -/
theorem pack_padEven (cs : List Code) : pack (padEven cs) = pack cs := by
  rw [← tripleCodes_pack, pack_tripleCodes (length_pack_mod_three cs)]

/-- Sequences pack alike exactly when their even completions are the same. -/
theorem pack_eq_pack_iff (cs ds : List Code) : pack cs = pack ds ↔ padEven cs = padEven ds := by
  refine ⟨fun h => ?_, fun h => ?_⟩
  · rw [← tripleCodes_pack, h, tripleCodes_pack]
  · rw [← pack_padEven, h, pack_padEven]

/-- Settles O43: the codes of the first triple and of the rest, whose length is a multiple of 3 as well. -/
theorem unpackByTriples : Obligations.UnpackByTriples := by
  refine ⟨fun bs h => if_neg h, rfl, fun b0 b1 b2 rest h => ?_⟩
  have hrest : rest.length % 3 = 0 := (length_cons_cons_cons_mod_three b0 b1 b2 rest).symm.trans h
  refine ⟨tripleCodes rest, unpack_of_whole hrest, ?_⟩
  rw [unpack_of_whole h, tripleCodes_cons_cons_cons]
  rfl

/-- Settles O47: three bytes for every two codes, a lone last one counted as two, and two codes for every three bytes. -/
theorem lengthsOfPackAndUnpack : Obligations.LengthsOfPackAndUnpack := by
  refine ⟨length_pack, length_pack_mod_three, fun cs => ?_, fun bs h => ⟨tripleCodes bs, unpack_of_whole h, ?_⟩⟩
  · rw [length_pack]
    omega
  · rw [length_tripleCodes]
    omega

/-- Settles O49: the triples of the packed buffer are the even completion of the sequence. -/
theorem unpackAfterPack : Obligations.UnpackAfterPack := by
  refine fun cs => ⟨fun h => ?_, fun h => ?_⟩
  · rw [unpack_pack, padEven_of_even h]
  · rw [unpack_pack, padEven_of_odd h]

/-- Settles O50: a buffer that unpacks is whole triples, and is then the packing of their codes. -/
theorem packAfterUnpack : Obligations.PackAfterUnpack := by
  refine ⟨fun bs h => ⟨tripleCodes bs, unpack_of_whole h, pack_tripleCodes h⟩,
    fun cs h => ⟨(unpackAfterPack cs).1 h, fun bs hbs => ?_⟩⟩
  obtain ⟨hwhole, rfl⟩ := (unpack_eq_codes_iff bs cs).1 hbs
  exact (pack_tripleCodes hwhole).symm

/-- Settles O51, by the parities of the two lengths: the even completions of different sequences are the same only when
one of the sequences is completed, and is then the other. -/
theorem packAmbiguity : Obligations.PackAmbiguity := by
  intro cs ds
  rw [pack_eq_pack_iff]
  constructor
  · rintro ⟨h, hne⟩
    rcases Nat.mod_two_eq_zero_or_one cs.length with hc | hc <;>
      rcases Nat.mod_two_eq_zero_or_one ds.length with hd | hd
    · rw [padEven_of_even hc, padEven_of_even hd] at h
      exact absurd h hne
    · rw [padEven_of_even hc, padEven_of_odd hd] at h
      exact .inr ⟨hd, h⟩
    · rw [padEven_of_odd hc, padEven_of_even hd] at h
      exact .inl ⟨hc, h.symm⟩
    · rw [padEven_of_odd hc, padEven_of_odd hd] at h
      exact absurd (List.append_cancel_right h) hne
  · have hpad {es : List Code} (he : es.length % 2 = 1) : padEven (es ++ [0#12]) = padEven es := by
      rw [padEven_of_odd he, padEven_of_even (by rw [List.length_append, List.length_singleton]; omega)]
    rintro (⟨hc, rfl⟩ | ⟨hd, rfl⟩)
    · exact ⟨(hpad hc).symm, by simp⟩
    · exact ⟨hpad hd, by simp⟩

/-! ### The form by index (R74) -/

theorem packByIndex_cons_cons (c1 c2 : Code) (rest : List Code) :
    packByIndex (c1 :: c2 :: rest) = wordBytes (tripleWord c1 c2) ++ packByIndex rest := by
  have hcount : (padEven (c1 :: c2 :: rest)).length / 2 = (padEven rest).length / 2 + 1 := by
    rw [padEven_cons_cons, List.length_cons, List.length_cons]
    omega
  rw [packByIndex, hcount, List.range_succ_eq_map, List.flatMap_cons, List.flatMap_map, padEven_cons_cons]
  rfl

theorem pack_eq_packByIndex (cs : List Code) : pack cs = packByIndex cs := by
  match cs with
  | [] => rfl
  | [c] => simp [pack, paddedWord, packByIndex, padEven, Config.padCode]
  | c1 :: c2 :: rest => rw [pack, packByIndex_cons_cons, pack_eq_packByIndex rest]

/-- Settles O42: the equations of the triple's bytes, and the form by index taken apart two codes at a time. -/
theorem packFormsAgree : Obligations.PackFormsAgree := by
  refine ⟨rfl, fun c => ?_, fun c1 c2 rest => ?_, pack_eq_packByIndex⟩
  · rw [pack_singleton, pack_cons_cons]
    rfl
  · rw [pack_cons_cons]
    rfl

/-! ### Concatenation (R83) -/

/-- Packing splits after an even number of codes. -/
theorem pack_append {as : List Code} (h : as.length % 2 = 0) (bs : List Code) :
    pack (as ++ bs) = pack as ++ pack bs := by
  match as with
  | [] => rfl
  | [_] => simp at h
  | c1 :: c2 :: as =>
    rw [length_cons_cons_mod_two] at h
    simp [pack_cons_cons, pack_append h bs]

/-- Settles O52: each buffer is split after an even number of codes, or after whole triples. -/
theorem concatenationOfSequences : Obligations.ConcatenationOfSequences := by
  refine ⟨fun as bs h => pack_append h bs, fun as bs a b h => ⟨?_, ?_⟩, fun xs ys hx hy => ?_⟩
  · have hpair : [a, b].length % 2 = 0 := by simp
    calc pack ((as ++ [a]) ++ (b :: bs))
      _ = pack (as ++ ([a, b] ++ bs)) := by simp
      _ = pack as ++ pack [a, b] ++ pack bs := by rw [pack_append h, pack_append hpair, List.append_assoc]
  · rw [pack_append h, pack_singleton, Config.padCode]
  · have hxy : (xs ++ ys).length % 3 = 0 := by
      rw [List.length_append]
      omega
    exact ⟨_, _, unpack_of_whole hx, unpack_of_whole hy, by rw [unpack_of_whole hxy, tripleCodes_append hx]⟩

/-! ### The bit string (R84) -/

/-- The bits of a word of any width, most significant first: what `codeBits` and `byteBits` are at their widths. -/
def wordBits {n : Nat} (w : BitVec n) : List Bool := (List.range n).map fun k => w.getMsbD k

theorem codeBits_eq_wordBits (c : Code) : codeBits c = wordBits c := rfl

theorem byteBits_eq_wordBits (b : Byte) : byteBits b = wordBits b := rfl

/-- The bits of a concatenation are those of its parts, the more significant part first (R7). -/
theorem wordBits_append {m n : Nat} (a : BitVec m) (b : BitVec n) : wordBits (a ++ b) = wordBits a ++ wordBits b := by
  have hhigh : (List.range m).map (a ++ b).getMsbD = wordBits a :=
    List.map_congr_left fun k hk => by simp [BitVec.getMsbD_append, List.mem_range.1 hk]
  have hlow : (List.range n).map ((a ++ b).getMsbD ∘ (m + ·)) = wordBits b :=
    List.map_congr_left fun k _ => by simp [BitVec.getMsbD_append]
  rw [wordBits, List.range_add, List.map_append, List.map_map, hhigh, hlow]

/-- The bits of a triple are those of its two codes: both are the bits of the triple word (R49). -/
theorem byteBits_triple (c1 c2 : Code) :
    byteBits (byte0Of c1) ++ byteBits (byte1Of c1 c2) ++ byteBits (byte2Of c2) = codeBits c1 ++ codeBits c2 :=
  calc byteBits (byte0Of c1) ++ byteBits (byte1Of c1 c2) ++ byteBits (byte2Of c2)
    _ = wordBits (tripleWord c1 c2) := by
      simp only [byteBits_eq_wordBits, ← wordBits_append]
      rfl
    _ = wordBits (c1 ++ c2) := by rw [tripleWord_eq_append]
    _ = codeBits c1 ++ codeBits c2 := by rw [codeBits_eq_wordBits, codeBits_eq_wordBits, wordBits_append]

/-- The bits of a packed buffer are those of the even completion of its codes. -/
theorem flatMap_byteBits_pack (cs : List Code) : (pack cs).flatMap byteBits = (padEven cs).flatMap codeBits := by
  match cs with
  | [] => rfl
  | [c] => simpa [pack_singleton, pack_cons_cons] using! byteBits_triple c Config.padCode
  | c1 :: c2 :: rest =>
    simp only [pack_cons_cons, padEven_cons_cons, List.flatMap_cons, flatMap_byteBits_pack rest, ← List.append_assoc,
      byteBits_triple]

/-- Settles O54: the virtual code's bits are twelve zeros; and the codes of a buffer are even in number, so that packing
them adds none. -/
theorem packIsTheBitString : Obligations.PackIsTheBitString := by
  refine ⟨fun cs => ?_, fun bs h => ⟨tripleCodes bs, unpack_of_whole h, ?_⟩⟩
  · rw [flatMap_byteBits_pack]
    split_ifs with h
    · rw [padEven_of_odd h, List.flatMap_append]
      rfl
    · rw [padEven_of_even (by omega), List.append_nil]
  · have heven : (tripleCodes bs).length % 2 = 0 := by rw [length_tripleCodes, Nat.mul_mod_right]
    rw [← padEven_of_even heven, ← flatMap_byteBits_pack, pack_tripleCodes h]

/-! ### A word after a run's inputs -/

/-- Inputs, then one command word: the word's meaning is taken at the state the inputs leave, and what the host has
presented beyond them stays. -/
theorem steps_then_word {s u : State} {xs : List HostInput} {w : CommandWord}
    (hu : steps xs.length (s.presenting (xs ++ [.cmd w])) = .next u) :
    ∃ t, exec (decode w) { u with pending := s.pending } = .next t ∧
      steps (xs.length + 1) (s.presenting (xs ++ [.cmd w])) = .next t ∧ t.pending = s.pending := by
  obtain ⟨u', hu', hpending⟩ := stepsAlwaysComplete xs.length (s.presenting (xs ++ [.cmd w]))
  obtain rfl := next_unique hu hu'
  have hp : u.pending = .cmd w :: s.pending := by simpa [State.presenting] using hpending
  obtain ⟨t, ht, htp⟩ := exec_next (decode w) { u with pending := s.pending }
  exact ⟨t, ht, by rw [steps_add hu, steps_succ_of_step ((step_of_cmd hp).trans ht), steps], htp⟩

/-- Inputs that do not act on the unpacker leave it as it was. -/
theorem steps_up_of_not_acts {xs rest : List HostInput} {s t : State} (hp : s.pending = xs ++ rest)
    (hxs : ∀ x ∈ xs, actsOnUnpacker x = false) (ht : steps xs.length s = .next t) : t.up = s.up := by
  obtain ⟨t', ht', hup⟩ := steps_of_inputs (ok := (!actsOnUnpacker ·)) (R := fun _ s t => t.up = s.up)
    (fun _ => rfl) (fun hx hs ht hu => hu.trans (step_up_of_not_acts (by simpa using hx) hs ht)) hp (by simpa using hxs)
  rwa [next_unique ht ht']

/-- Inputs that do not act on the packer leave it as it was. -/
theorem steps_pk_of_not_acts {xs rest : List HostInput} {s t : State} (hp : s.pending = xs ++ rest)
    (hxs : ∀ x ∈ xs, actsOnPacker x = false) (ht : steps xs.length s = .next t) : t.pk = s.pk := by
  obtain ⟨t', ht', hpk⟩ := steps_of_inputs (ok := (!actsOnPacker ·)) (R := fun _ s t => t.pk = s.pk)
    (fun _ => rfl) (fun hx hs ht hu => hu.trans (step_pk_of_not_acts (by simpa using hx) hs ht)) hp (by simpa using hxs)
  rwa [next_unique ht ht']

/-- Following a run whose inputs let it go on up to one that ends it finds the state after that one (R109). -/
theorem runStop_ended {event : HostInput → RunEvent} {xs rest : List HostInput} {x : HostInput} {s t : State}
    (hp : s.pending = xs ++ x :: rest) (hgo : ∀ y ∈ xs, event y = .goesOn) (hx : event x = .ends)
    (ht : steps (xs.length + 1) s = .next t) : runStop event s.pending.length s = .ended t := by
  induction xs generalizing s with
  | nil =>
    obtain ⟨u, hu, -⟩ := step_takes hp
    obtain rfl : u = t := by simpa [steps, hu] using ht
    simp [hp, runStop, hx, hu]
  | cons y ys ih =>
    obtain ⟨hy, hys⟩ := List.forall_mem_cons.1 hgo
    obtain ⟨u, hu, hup⟩ := step_takes hp
    have hrest := ih hup hys (by rwa [List.length_cons, steps_succ_of_step hu] at ht)
    rw [hup] at hrest
    simpa [hp, runStop, hy, hu] using hrest

/-! ### The packer's run (R76) -/

/-- P.PUSH and P.NOP are words of the packer that let its run go on. -/
theorem packer_word_of_wordCarriesCodes {i : Instr} (hi : wordCarriesCodes i = true) :
    i.port = .pk ∧ packerWordEvent i = .goesOn := by
  cases i with
  | pNop | pPush _ => exact ⟨rfl, rfl⟩
  | pEnd | pClr | uNop | uPush _ | uEnd | uClr => cases hi

/-- An input that carries a code sequence on lets a run of the packer go on and does not act on the unpacker. -/
theorem packer_input_of_carriesCodes {x : HostInput} (hx : carriesCodes x = true) :
    packerRunEvent x = .goesOn ∧ actsOnUnpacker x = false := by
  cases x with
  | cmd w =>
    obtain ⟨hport, hgo⟩ := packer_word_of_wordCarriesCodes hx
    exact ⟨hgo, by simp [actsOnUnpacker_cmd, ← decode_port, hport]⟩
  | rst => cases hx

/-- Inputs that carry a code sequence on let a run of the packer go on. -/
theorem goesOn_of_all_carriesCodes {xs : List HostInput} (hall : xs.all carriesCodes = true) :
    ∀ x ∈ xs, packerRunEvent x = .goesOn :=
  fun x hx => (packer_input_of_carriesCodes (List.all_eq_true.1 hall x hx)).1

/-- What a run of the packer conserves: the bytes emitted, and after them the packing of the code held and of the codes
still to come, whatever these are. -/
def PackerTakes (cs : List Code) (p q : Packer) : Prop :=
  ∀ rest, q.out ++ pack (heldCodes q ++ rest) = p.out ++ pack (heldCodes p ++ (cs ++ rest))

theorem PackerTakes.refl (p : Packer) : PackerTakes [] p p := fun _ => rfl

theorem PackerTakes.trans {cs ds : List Code} {p q r : Packer} (h : PackerTakes cs p q) (h' : PackerTakes ds q r) :
    PackerTakes (cs ++ ds) p r := fun rest => by rw [h' rest, h (ds ++ rest), List.append_assoc]

theorem heldCodes_of_empty {p : Packer} (h : p.full = false) : heldCodes p = [] := by simp [heldCodes, h]

theorem heldCodes_of_full {p : Packer} (h : p.full = true) : heldCodes p = [p.hold] := by simp [heldCodes, h]

/-- P.PUSH takes the code it carries, whether it is held or completes a pair. -/
theorem exec_pPush_takes {c : Code} {s t : State} (h : exec (.pPush c) s = .next t) : PackerTakes [c] s.pk t.pk := by
  intro rest
  cases hfull : s.pk.full with
  | false =>
    obtain rfl := next_unique (execPPush_of_empty hfull) h
    rw [heldCodes_of_empty hfull, heldCodes_of_full (by simp)]
    rfl
  | true =>
    obtain rfl := next_unique (execPPush_of_full hfull) h
    rw [heldCodes_of_full hfull, heldCodes_of_empty (by simp)]
    exact List.append_assoc _ _ _

/-- A word that lets a run of the packer go on takes the codes it pushes: one for P.PUSH, else none. -/
theorem exec_packer_takes {i : Instr} (hi : packerWordEvent i = .goesOn) {s t : State} (h : exec i s = .next t) :
    PackerTakes (wordPushedCodes i) s.pk t.pk := by
  cases i with
  | pPush c => exact exec_pPush_takes h
  | pNop => exact next_unique (exec_pNop s) h ▸ .refl s.pk
  | uNop | uPush _ | uEnd | uClr => exact exec_pk_of_port_up rfl h ▸ .refl s.pk
  | pEnd | pClr => cases hi

theorem step_packer_takes {x : HostInput} {rest : List HostInput} {s t : State} (hx : packerRunEvent x = .goesOn)
    (hp : s.pending = x :: rest) (ht : step s = .next t) : PackerTakes (pushedCodes [x]) s.pk t.pk := by
  cases x with
  | cmd w =>
    rw [step_of_cmd hp] at ht
    simpa [pushedCodes] using exec_packer_takes hx ht
  | rst => cases hx

theorem steps_packer_takes {xs rest : List HostInput} {s : State} (hp : s.pending = xs ++ rest)
    (hgo : ∀ x ∈ xs, packerRunEvent x = .goesOn) :
    ∃ t, steps xs.length s = .next t ∧ PackerTakes (pushedCodes xs) s.pk t.pk := by
  refine steps_of_inputs (ok := fun x => packerRunEvent x = .goesOn)
    (R := fun xs s t => PackerTakes (pushedCodes xs) s.pk t.pk) (fun s => .refl s.pk) ?_ hp (by simpa using hgo)
  intro x xs _ s t u hx hp ht hu
  rw [pushedCodes_cons]
  exact (step_packer_takes (by simpa using hx) hp ht).trans hu

/-- P.END emits the packing of the code held (R60). -/
theorem exec_pEnd_emits {s t : State} (h : exec .pEnd s = .next t) :
    t.pk.full = false ∧ t.pk.out = s.pk.out ++ pack (heldCodes s.pk) := by
  cases hfull : s.pk.full with
  | false =>
    obtain rfl := next_unique (execPEnd_of_empty hfull) h
    exact ⟨hfull, by rw [heldCodes_of_empty hfull, pack, List.append_nil]⟩
  | true =>
    obtain rfl := next_unique (execPEnd_of_full hfull) h
    exact ⟨rfl, by rw [heldCodes_of_full hfull]; rfl⟩

/-- A run of the packer to its P.END appends the packing of the code held and the codes pushed, whatever words of the
unpacker come among its own. -/
theorem steps_packer_run {s : State} {xs : List HostInput} {w : CommandWord}
    (hgo : ∀ x ∈ xs, packerRunEvent x = .goesOn) (hw : decode w = .pEnd) :
    ∃ t, steps (xs.length + 1) (s.presenting (xs ++ [.cmd w])) = .next t ∧ t.pending = s.pending ∧
      t.pk.full = false ∧ t.pk.out = s.pk.out ++ pack (heldCodes s.pk ++ pushedCodes xs) := by
  obtain ⟨u, hu, htakes⟩ := steps_packer_takes (s := s.presenting (xs ++ [.cmd w])) (List.append_assoc _ _ _) hgo
  obtain ⟨t, ht, hsteps, hpending⟩ := steps_then_word hu
  rw [hw] at ht
  obtain ⟨hfull, hout⟩ := exec_pEnd_emits ht
  exact ⟨t, hsteps, hpending, hfull, hout.trans (by simpa using! htakes [])⟩

/-- The packer's own words and their P.END leave the unpacker as it was. -/
theorem steps_packer_up {s t : State} {xs : List HostInput} {w : CommandWord} (hall : xs.all carriesCodes = true)
    (hw : decode w = .pEnd) (ht : steps (xs.length + 1) (s.presenting (xs ++ [.cmd w])) = .next t) : t.up = s.up := by
  have hidle : ∀ x ∈ xs ++ [.cmd w], actsOnUnpacker x = false := by
    refine List.forall_mem_append.2
      ⟨fun x hx => (packer_input_of_carriesCodes (List.all_eq_true.1 hall x hx)).2, ?_⟩
    simp [actsOnUnpacker_cmd, ← decode_port, hw, Instr.port]
  exact steps_up_of_not_acts (s := s.presenting _) rfl hidle (by simpa using ht)

/-- The result of a run of the packer from the initial condition to its P.END is the packing of the codes pushed
(R109). -/
theorem packerRun_result {s : State} {xs : List HostInput} {w : CommandWord} (hs : pkInitial s)
    (hgo : ∀ x ∈ xs, packerRunEvent x = .goesOn) (hw : decode w = .pEnd) :
    packerRun (s.presenting (xs ++ [.cmd w])) = .result (pack (pushedCodes xs)) := by
  obtain ⟨t, ht, -, -, hout⟩ := steps_packer_run (s := s) hgo hw
  have hp : (s.presenting (xs ++ [.cmd w])).pending = xs ++ .cmd w :: s.pending := by simp [State.presenting]
  have hend : packerRunEvent (.cmd w) = .ends := by rw [packerRunEvent, hw, packerWordEvent]
  have hstart : pkInitial (s.presenting (xs ++ [.cmd w])) := hs
  rw [packerRun, if_pos hstart, runStop_ended hp hgo hend ht]
  simp [hout, heldCodes_of_empty hs, State.presenting]

/-- The words of P.PACK as inputs: the pushes, then P.END (R55). -/
theorem packExpansion_inputs (cs : List Code) :
    (packExpansion cs).map (fun i => HostInput.cmd (encode i)) =
      cs.map (fun c => .cmd (encode (.pPush c))) ++ [.cmd (encode .pEnd)] := by
  simp [packExpansion]

theorem carriesCodes_pushes (cs : List Code) :
    (cs.map fun c => HostInput.cmd (encode (.pPush c))).all carriesCodes = true := by
  simp [carriesCodes, wordCarriesCodes]

@[simp] theorem pushedCodes_pushes (cs : List Code) :
    pushedCodes (cs.map fun c => .cmd (encode (.pPush c))) = cs := by
  induction cs with
  | nil => rfl
  | cons c cs ih => simp [pushedCodes, wordPushedCodes, ih]

/-- P.PACK from the initial condition appends the packing of its codes, and leaves the unpacker as it was. -/
theorem steps_pPack {s : State} (hs : pkInitial s) (cs : List Code) :
    ∃ t, steps (cs.length + 1) (s.presenting ((packExpansion cs).map fun i => .cmd (encode i))) = .next t ∧
      t.up = s.up ∧ t.pk.full = false ∧ t.pk.out = s.pk.out ++ pack cs := by
  have hw : decode (encode .pEnd) = .pEnd := decode_encode .pEnd
  obtain ⟨t, ht, -, hfull, hout⟩ := steps_packer_run (s := s) (goesOn_of_all_carriesCodes (carriesCodes_pushes cs)) hw
  rw [heldCodes_of_empty hs, pushedCodes_pushes] at hout
  exact ⟨t, by simpa [packExpansion_inputs] using ht, steps_packer_up (carriesCodes_pushes cs) hw ht, hfull, hout⟩

/-- The run of the packer over P.PACK has the packing of its codes as its result (R109). -/
theorem packerRun_pPack {s : State} (hs : pkInitial s) (cs : List Code) :
    packerRun (s.presenting ((packExpansion cs).map fun i => .cmd (encode i))) = .result (pack cs) := by
  rw [packExpansion_inputs, packerRun_result hs (goesOn_of_all_carriesCodes (carriesCodes_pushes cs))
    (decode_encode .pEnd), pushedCodes_pushes]

/-- Settles O44: what the run conserves, read at its end, by the code that is or is not held at its start. -/
theorem packerRunIsPack : Obligations.PackerRunIsPack := by
  refine ⟨fun s xs w hall hw => ?_, fun s cs hs => ?_⟩
  · obtain ⟨t, ht, hpending, hfull, hout⟩ := steps_packer_run (s := s) (goesOn_of_all_carriesCodes hall) hw
    exact ⟨t, ht, hfull, steps_packer_up hall hw ht ▸ .refl s.up, hpending,
      fun h => by rw [hout, heldCodes_of_empty h, List.nil_append], fun h => by rw [hout, heldCodes_of_full h]; rfl⟩
  · obtain ⟨t, ht, -, hfull, hout⟩ := steps_pPack hs cs
    exact ⟨t, ht, hfull, hout⟩

/-! ### The unpacker's run (R77) -/

/-- U.PUSH and U.NOP are words of the unpacker that let its run go on. -/
theorem unpacker_word_of_wordCarriesBytes {i : Instr} (hi : wordCarriesBytes i = true) :
    i.port = .up ∧ unpackerWordEvent i = .goesOn := by
  cases i with
  | uNop | uPush _ => exact ⟨rfl, rfl⟩
  | uEnd | uClr | pNop | pPush _ | pEnd | pClr => cases hi

/-- An input that carries a byte buffer on lets a run of the unpacker go on and does not act on the packer. -/
theorem unpacker_input_of_carriesBytes {x : HostInput} (hx : carriesBytes x = true) :
    unpackerRunEvent x = .goesOn ∧ actsOnPacker x = false := by
  cases x with
  | cmd w =>
    obtain ⟨hport, hgo⟩ := unpacker_word_of_wordCarriesBytes hx
    exact ⟨hgo, by simp [actsOnPacker_cmd, ← decode_port, hport]⟩
  | rst => cases hx

/-- `UP.CNT` is the number of bytes held (R15, R90). -/
theorem toNat_cntOf (u : Unpacker) : (cntOf u).toNat = (heldBytes u).length := by
  obtain ⟨b0, b1, ctl, out⟩ := u
  rcases ctl with (_ | _ | _) | (_ | _) <;> rfl

theorem length_heldBytes_lt (u : Unpacker) : (heldBytes u).length < 3 := by
  rw [← toNat_cntOf]
  rcases cntOf_cases u with h | h | h <;> simp [h]

/-- The initial condition by the registers (R109). -/
theorem upInitial_iff (s : State) : upInitial s ↔ errOf s.up = false ∧ (cntOf s.up).toNat = 0 := by
  rcases ctl_cases s.up with ⟨h, he, hc⟩ | ⟨h, he, hc⟩ | ⟨h, he, hc⟩ | ⟨h, he, hc⟩ | ⟨h, he, hc⟩ <;>
    simp [upInitial, h, he, hc]

/-- What a run of the unpacker conserves: it is running, it holds what whole triples leave of the bytes taken, and the
codes emitted, followed by those of the bytes held and of the bytes still to come, whatever these are. -/
structure UnpackerTakes (bs : List Byte) (u v : Unpacker) : Prop where
  running : errOf v = false
  held : (heldBytes v).length % 3 = ((heldBytes u).length + bs.length) % 3
  codes : ∀ rest, v.out ++ tripleCodes (heldBytes v ++ rest) = u.out ++ tripleCodes (heldBytes u ++ (bs ++ rest))

theorem UnpackerTakes.refl {u : Unpacker} (h : errOf u = false) : UnpackerTakes [] u u := ⟨h, rfl, fun _ => rfl⟩

theorem UnpackerTakes.trans {bs bs' : List Byte} {u v w : Unpacker} (h : UnpackerTakes bs u v)
    (h' : UnpackerTakes bs' v w) : UnpackerTakes (bs ++ bs') u w where
  running := h'.running
  held := by
    have hv := h.held
    have hw := h'.held
    rw [List.length_append]
    omega
  codes rest := by rw [h'.codes rest, h.codes (bs' ++ rest), List.append_assoc]

/-- U.PUSH takes the byte it carries, whether it is held or completes a triple. -/
theorem exec_uPush_takes {b : Byte} {s t : State} (he : errOf s.up = false) (h : exec (.uPush b) s = .next t) :
    UnpackerTakes [b] s.up t.up := by
  match hctl : s.up.ctl with
  | .faulted _ => simp [errOf, hctl] at he
  | .running .zero =>
    obtain rfl := next_unique (execUPush_of_zero hctl) h
    constructor <;> simp [heldBytes, hctl, errOf]
  | .running .one =>
    obtain rfl := next_unique (execUPush_of_one hctl) h
    constructor <;> simp [heldBytes, hctl, errOf]
  | .running .two =>
    obtain rfl := next_unique (execUPush_of_two hctl) h
    constructor <;> simp [heldBytes, hctl, errOf, tripleCodes]

/-- A word that lets a run of the unpacker go on takes the bytes it pushes: one for U.PUSH, else none. -/
theorem exec_unpacker_takes {i : Instr} (hi : unpackerWordEvent i = .goesOn) {s t : State} (he : errOf s.up = false)
    (h : exec i s = .next t) : UnpackerTakes (wordPushedBytes i) s.up t.up := by
  cases i with
  | uPush b => exact exec_uPush_takes he h
  | uNop => exact next_unique (exec_uNop s) h ▸ .refl he
  | pNop | pPush _ | pEnd | pClr =>
    rw [exec_up_of_port_pk rfl h]
    exact .refl he
  | uEnd | uClr => cases hi

theorem step_unpacker_takes {x : HostInput} {rest : List HostInput} {s t : State}
    (hx : unpackerRunEvent x = .goesOn) (hp : s.pending = x :: rest) (he : errOf s.up = false)
    (ht : step s = .next t) : UnpackerTakes (pushedBytes [x]) s.up t.up := by
  cases x with
  | cmd w =>
    rw [step_of_cmd hp] at ht
    simpa [pushedBytes] using exec_unpacker_takes (s := { s with pending := rest }) hx he ht
  | rst => cases hx

theorem steps_unpacker_takes {xs rest : List HostInput} {s : State} (hp : s.pending = xs ++ rest)
    (hgo : ∀ x ∈ xs, unpackerRunEvent x = .goesOn) (he : errOf s.up = false) :
    ∃ t, steps xs.length s = .next t ∧ UnpackerTakes (pushedBytes xs) s.up t.up := by
  obtain ⟨t, ht, htakes⟩ := steps_of_inputs (ok := fun x => unpackerRunEvent x = .goesOn)
    (R := fun xs s t => errOf s.up = false → UnpackerTakes (pushedBytes xs) s.up t.up) (fun _ => .refl)
    (fun {x xs _ s t u} hx hp ht hu he => by
      have hfirst := step_unpacker_takes (by simpa using hx) hp he ht
      rw [pushedBytes_cons]
      exact hfirst.trans (hu hfirst.running)) hp (by simpa using hgo)
  exact ⟨t, ht, htakes he⟩

/-- A run of the unpacker to its U.END appends the codes of the whole triples of the bytes pushed and keeps the count of the
bytes left over; it ends in the initial condition with none, and faulted with any, whatever words of the packer come among
its own. -/
theorem steps_unpacker_run {s : State} {xs : List HostInput} {w : CommandWord} (hs : upInitial s)
    (hgo : ∀ x ∈ xs, unpackerRunEvent x = .goesOn) (hw : decode w = .uEnd) :
    ∃ t, steps (xs.length + 1) (s.presenting (xs ++ [.cmd w])) = .next t ∧ t.pending = s.pending ∧
      t.up.out = s.up.out ++ tripleCodes (pushedBytes xs) ∧ (cntOf t.up).toNat = (pushedBytes xs).length % 3 ∧
      (upInitial t ↔ (pushedBytes xs).length % 3 = 0) ∧ (errOf t.up = true ↔ (pushedBytes xs).length % 3 ≠ 0) := by
  obtain ⟨u, hu, hrun, hheld, hcodes⟩ := steps_unpacker_takes (s := s.presenting (xs ++ [.cmd w]))
    (List.append_assoc _ _ _) hgo (errOf_of_running hs)
  have hnone : heldBytes (s.presenting (xs ++ [.cmd w])).up = [] := by simp [heldBytes, State.presenting, hs]
  have hcnt : (cntOf u.up).toNat = (pushedBytes xs).length % 3 := by
    have := length_heldBytes_lt u.up
    rw [hnone, List.length_nil] at hheld
    rw [toNat_cntOf]
    omega
  have hout : u.up.out = s.up.out ++ tripleCodes (pushedBytes xs) := by
    have hend := hcodes []
    rw [hnone, List.append_nil, tripleCodes_of_length_lt (length_heldBytes_lt u.up)] at hend
    simpa using! hend
  obtain ⟨t, ht, hsteps, hpending⟩ := steps_then_word hu
  rw [hw] at ht
  obtain ⟨hcnt', -, -, hout'⟩ := exec_uEnd_frame ht
  obtain ⟨t', ht', herr⟩ := exec_uEnd_errOf_iff (s := { u with pending := s.pending }) hrun
  obtain rfl := next_unique ht ht'
  rw [← BitVec.toNat_inj.ne, hcnt] at herr
  rw [← hcnt'] at hcnt
  refine ⟨t, hsteps, hpending, hout'.trans hout, hcnt, ?_, herr⟩
  rw [upInitial_iff, hcnt, and_iff_right_iff_imp]
  intro h
  simpa [h] using herr

/-- The unpacker's own words and their U.END leave the packer as it was. -/
theorem steps_unpacker_pk {s t : State} {xs : List HostInput} {w : CommandWord} (hall : xs.all carriesBytes = true)
    (hw : decode w = .uEnd) (ht : steps (xs.length + 1) (s.presenting (xs ++ [.cmd w])) = .next t) : t.pk = s.pk := by
  have hidle : ∀ x ∈ xs ++ [.cmd w], actsOnPacker x = false := by
    refine List.forall_mem_append.2
      ⟨fun x hx => (unpacker_input_of_carriesBytes (List.all_eq_true.1 hall x hx)).2, ?_⟩
    simp [actsOnPacker_cmd, ← decode_port, hw, Instr.port]
  exact steps_pk_of_not_acts (s := s.presenting _) rfl hidle (by simpa using ht)

/-- The words of U.UNPACK as inputs: the pushes, then U.END (R55). -/
theorem unpackExpansion_inputs (bs : List Byte) :
    (unpackExpansion bs).map (fun i => HostInput.cmd (encode i)) =
      bs.map (fun b => .cmd (encode (.uPush b))) ++ [.cmd (encode .uEnd)] := by
  simp [unpackExpansion]

theorem unpackerRunEvent_pushes (bs : List Byte) :
    ∀ x ∈ bs.map fun b => HostInput.cmd (encode (.uPush b)), unpackerRunEvent x = .goesOn := by
  simp [unpackerRunEvent, unpackerWordEvent]

@[simp] theorem pushedBytes_pushes (bs : List Byte) :
    pushedBytes (bs.map fun b => .cmd (encode (.uPush b))) = bs := by
  induction bs with
  | nil => rfl
  | cons b bs ih => simp [pushedBytes, wordPushedBytes, ih]

/-- U.UNPACK of whole triples from the initial condition appends their codes and ends in the initial condition. -/
theorem steps_uUnpack {s : State} (hs : upInitial s) {bs : List Byte} (hbs : bs.length % 3 = 0) :
    ∃ t, steps (bs.length + 1) (s.presenting ((unpackExpansion bs).map fun i => .cmd (encode i))) = .next t ∧
      upInitial t ∧ t.up.out = s.up.out ++ tripleCodes bs := by
  obtain ⟨t, ht, -, hout, -, hup, -⟩ :=
    steps_unpacker_run hs (unpackerRunEvent_pushes bs) (decode_encode .uEnd)
  rw [pushedBytes_pushes] at hout hup
  exact ⟨t, by simpa [unpackExpansion_inputs] using ht, hup.2 hbs, hout⟩

/-- Settles O45: what the run conserves, read at its end. -/
theorem unpackerRunIsUnpack : Obligations.UnpackerRunIsUnpack := by
  refine ⟨fun s xs w hs hall hw => ?_, fun s bs hs hbs => ?_⟩
  · have hgo : ∀ x ∈ xs, unpackerRunEvent x = .goesOn :=
      fun x hx => (unpacker_input_of_carriesBytes (List.all_eq_true.1 hall x hx)).1
    obtain ⟨t, ht, hpending, hout, hcnt, hup, herr⟩ := steps_unpacker_run hs hgo hw
    refine ⟨t, ht, steps_unpacker_pk hall hw ht ▸ .refl s.pk, hpending, fun h => ?_, fun h => ?_⟩
    · exact ⟨hup.2 h, _, unpack_of_whole h, hout⟩
    · exact ⟨herr.2 h, hcnt, _, unpack_of_whole (length_take_whole _), by rw [hout, tripleCodes_take_whole]⟩
  · obtain ⟨t, ht, hup, hout⟩ := steps_uUnpack hs hbs
    exact ⟨t, _, ht, hup, unpack_of_whole hbs, hout⟩

/-! ### The empty sequence (R79) and the round trip (R80) -/

/-- Settles O48: END finds nothing held in the initial condition. -/
theorem emptySequences : Obligations.EmptySequences :=
  ⟨rfl, rfl, fun s hs => ⟨s, execPEnd_of_empty hs, .refl s⟩, fun s hs => ⟨s, execUEnd_of_zero hs, .refl s⟩⟩

/-- Settles O59: P.PACK leaves the unpacker in its initial condition, and the bytes it emits are whole triples, whose
codes are the even completion of the sequence. -/
theorem roundTripThroughBothUnits : Obligations.RoundTripThroughBothUnits := by
  intro s cs hpk hup
  obtain ⟨t, ht, htup, -⟩ := steps_pPack hpk cs
  have hinitial : upInitial t := (congrArg Unpacker.ctl htup).trans hup
  obtain ⟨t', ht', hup', hout⟩ := steps_uUnpack hinitial (length_pack_mod_three cs)
  exact ⟨t, t', pack cs, ht, packerRun_pPack hpk cs, ht', errOf_of_running hup', by rw [hout, htup, tripleCodes_pack]⟩

end Sys2Proof.Machine

/-! The statements of spec/60_exceptions.md: what raises FormatError and what taking it writes (R91, R93), the faulted
unit (R95), leaving the fault (R96), and the line `up_err` (R99). -/

namespace Sys2Proof.Machine

/-! ### Raising FormatError (R91) -/

/-- A command word other than U.END does not raise FormatError. -/
theorem exec_errOf_of_ne_uEnd {i : Instr} {s t : State} (hi : i ≠ .uEnd) (he : errOf s.up = false)
    (h : exec i s = .next t) : errOf t.up = false := by
  cases i with
  | uNop => rwa [next_unique h (exec_uNop s)]
  | uPush b =>
    obtain ⟨herr, -⟩ := exec_uPush_frame h
    exact herr.trans he
  | uEnd => exact absurd rfl hi
  | uClr => rw [next_unique h (exec_uClr s)]; rfl
  | pNop | pPush _ | pEnd | pClr => rwa [exec_up_of_port_pk rfl h]

/-- A command word raises FormatError exactly when it is a U.END that finds bytes left over in the running unit. -/
theorem exec_raises_iff {i : Instr} {s t : State} (h : exec i s = .next t) :
    (errOf s.up = false ∧ errOf t.up = true) ↔ (i = .uEnd ∧ errOf s.up = false ∧ cntOf s.up ≠ 0#2) := by
  by_cases hi : i = .uEnd
  · subst hi
    rw [and_iff_right rfl]
    refine and_congr_right fun he => ?_
    obtain ⟨t', ht', hiff⟩ := exec_uEnd_errOf_iff he
    rwa [next_unique h ht']
  · refine iff_of_false (fun ⟨he, he'⟩ => ?_) fun hend => hi hend.1
    simp [exec_errOf_of_ne_uEnd hi he h] at he'

/-- `UP.CNT` is never 3, so that bytes are left over when it is 1 or 2 (R20 a). -/
theorem cntOf_ne_zero_iff (u : Unpacker) : cntOf u ≠ 0#2 ↔ cntOf u = 1#2 ∨ cntOf u = 2#2 := by
  rcases cntOf_cases u with h | h | h <;> simp [h]

/-- Settles O20: the one word that raises FormatError, and a sequence's bytes followed by it. -/
theorem formatErrorRaisedExactlyByUEnd : Obligations.FormatErrorRaisedExactlyByUEnd := by
  refine ⟨fun i s => ?_, fun _ _ _ => steps_then_uEnd_errOf_iff⟩
  obtain ⟨t, ht, -⟩ := exec_next i s
  exact ⟨t, ht, by rw [← cntOf_ne_zero_iff]; exact exec_raises_iff ht⟩

/-! ### Taking FormatError (R93) -/

/-- `USTAT` once FormatError is taken: `UP.ERR` over the leftover count (R19, R93). -/
@[simp] theorem ustat_raiseFormatError (n : Leftover) (s : State) :
    ustat (raiseFormatError n s) = 1#1 ++ leftoverBits n := rfl

/-- The line is raised once FormatError is taken (R93, R99). -/
@[simp] theorem upErr_raiseFormatError (n : Leftover) (s : State) : upErr (raiseFormatError n s) = 1#1 := rfl

/-- Settles O21: the one write of each leftover count, and the status words it gives. -/
theorem formatErrorEntry : Obligations.FormatErrorEntry := by
  intro s
  refine ⟨fun hctl => ⟨_, execUEnd_of_one hctl, .refl _⟩, fun hctl => ⟨_, execUEnd_of_two hctl, .refl _⟩, ?_⟩
  intro t ht he
  have hstatus (hc : cntOf s.up ≠ 0#2) : ustat t = 1#1 ++ cntOf s.up ∧ upErr t = 1#1 := by
    obtain ⟨n, hn, hleft⟩ := exec_uEnd_of_leftover he hc
    simp [next_unique ht hn, hleft]
  constructor <;> intro hc <;> simpa [hc] using hstatus

/-! ### The faulted unit (R95) -/

/-- The faulted unit ignores any number of its words without U.CLR among them. -/
theorem steps_of_faulted {s : State} {ws : List CommandWord} (he : errOf s.up = true)
    (hws : ∀ w ∈ ws, w.port = .up ∧ decode w ≠ .uClr) :
    steps ws.length (s.presenting (ws.map .cmd)) = .next s := by
  induction ws with
  | nil => rfl
  | cons w ws ih =>
    obtain ⟨⟨hport, hclr⟩, hws⟩ := List.forall_mem_cons.1 hws
    have hstep : step (s.presenting ((w :: ws).map .cmd)) = .next (s.presenting (ws.map .cmd)) :=
      (step_of_cmd rfl).trans (exec_of_faulted he ((decode_port w).trans hport) hclr)
    exact (steps_succ_of_step hstep _).trans (ih hws)

/-- Settles O22: the faulted unpacker ignores its words, and what a word does to the packer is the same from states with
the same packer. -/
theorem faultedUnitIsTerminal : Obligations.FaultedUnitIsTerminal := by
  refine ⟨fun s ws he hws => ⟨s, steps_of_faulted he hws, .refl s⟩, fun i s u _ => ?_⟩
  obtain ⟨t, ht, -⟩ := exec_next i s
  obtain ⟨t', ht', -⟩ := exec_next i { s with up := u }
  exact ⟨t, t', ht, ht', exec_packer_agree ht ht' (.refl s.pk)⟩

/-! ### Leaving the fault (R96) -/

/-- U.CLR and reset leave the unpacker in its initial condition. -/
theorem step_upInitial {s : State} {x : HostInput} {rest : List HostInput} (hp : s.pending = x :: rest)
    (hx : (∃ w, x = .cmd w ∧ decode w = .uClr) ∨ ∃ p u, x = .rst p u) :
    ∃ t, step s = .next t ∧ upInitial t := by
  obtain ⟨w, rfl, hw⟩ | ⟨p, u, rfl⟩ := hx
  · exact ⟨_, by rw [step_of_cmd hp, hw, exec_uClr], rfl⟩
  · exact ⟨_, step_of_rst hp, rfl⟩

/-- Settles O23: in the initial condition a U.PUSH keeps the first byte of a buffer. -/
theorem leavingTheFault : Obligations.LeavingTheFault := by
  intro s x _ hx
  obtain ⟨t, ht, hinitial⟩ := step_upInitial (s := s.presenting [x]) rfl hx
  exact ⟨t, ht, errOf_of_running hinitial, cntOf_of_running hinitial,
    fun b => ⟨_, execUPush_of_zero hinitial, rfl, rfl, rfl, rfl⟩⟩

/-! ### The line `up_err` (R99) -/

theorem upErr_eq_one_iff (s : State) : upErr s = 1#1 ↔ errOf s.up = true := by
  cases h : errOf s.up <;> simp [upErr, h]

theorem upErr_eq_zero_iff (s : State) : upErr s = 0#1 ↔ errOf s.up = false := by
  cases h : errOf s.up <;> simp [upErr, h]

/-- A step enters the fault only by taking a U.END that finds bytes left over. -/
theorem step_enters_fault {s t : State} (he : errOf s.up = false) (ht : step s = .next t) (he' : errOf t.up = true) :
    cntOf s.up ≠ 0#2 ∧ ∃ w rest, s.pending = .cmd w :: rest ∧ decode w = .uEnd := by
  match hp : s.pending with
  | [] =>
    obtain rfl := next_unique (step_of_idle hp) ht
    simp [he] at he'
  | .cmd w :: rest =>
    rw [step_of_cmd hp] at ht
    obtain ⟨hend, -, hcnt⟩ := (exec_raises_iff ht).1 ⟨he, he'⟩
    exact ⟨hcnt, w, rest, rfl, hend⟩
  | .rst p u :: rest =>
    obtain rfl := next_unique (step_of_rst hp) ht
    cases he'

/-- Settles O24: the line is `UP.ERR`, and a step enters or leaves the fault only by these inputs. -/
theorem upErrLineIsALevel : Obligations.UpErrLineIsALevel := by
  intro s t ht
  simp only [upErr_eq_one_iff, upErr_eq_zero_iff]
  exact ⟨fun he => step_enters_fault he ht, fun he => step_leaves_fault he ht⟩

end Sys2Proof.Machine

/-! The statements of spec/70_reset_and_hazards.md: reset (R105), what reset, CLR and END leave (R107), a run and its
result (R109), and a P.END met early (R116). -/

namespace Sys2Proof.Machine

/-! ### A run and its result (R109) -/

/-- Inputs that stand first among those presented, set apart from those behind them. -/
theorem eq_presenting {s : State} {xs rest : List HostInput} (h : s.pending = xs ++ rest) :
    s = ({ s with pending := rest } : State).presenting xs := by
  rw [State.presenting, ← h]

theorem presenting_snoc_pending (s : State) (xs : List HostInput) (x : HostInput) :
    (s.presenting (xs ++ [x])).pending = xs ++ x :: s.pending := by
  simp [State.presenting]

/-- The inputs that let a run go on, and the one after them that does not, are the same however the stream is split. -/
theorem find_stopping_input {event : HostInput → RunEvent} {xs rest : List HostInput} {x : HostInput}
    (hgo : ∀ y ∈ xs, event y = .goesOn) (hx : event x ≠ .goesOn) :
    (xs ++ x :: rest).find? (event · ≠ .goesOn) = some x := by
  have hnone : xs.find? (event · ≠ .goesOn) = none := List.find?_eq_none.2 (by simpa using hgo)
  rw [List.find?_append, hnone, Option.none_or, List.find?_cons_of_pos (by simpa using hx)]

/-- An input that cuts the run short before any other stops it leaves it so. -/
theorem runStop_cutShort {event : HostInput → RunEvent} {s : State} {xs rest : List HostInput} {x : HostInput}
    (hp : s.pending = xs ++ x :: rest) (hgo : ∀ y ∈ xs, event y = .goesOn) (hx : event x = .cutsShort) :
    runStop event s.pending.length s = .cutShort := by
  have hfirst : s.pending.find? (event · ≠ .goesOn) = some x := hp ▸ find_stopping_input hgo (by simp [hx])
  obtain ⟨hall, -⟩ | ⟨ys, y, tail, hp', hgo', ⟨-, hcut⟩ | ⟨hends, -⟩⟩ := runStop_cases event s
  · simp [hall x (by simp [hp])] at hx
  · exact hcut
  · rw [hp', find_stopping_input hgo' (by simp [hends]), Option.some.injEq] at hfirst
    simp [← hfirst, hends] at hx

/-- A run goes on while every input lets it. -/
theorem runStop_goingOn {event : HostInput → RunEvent} {s : State} (hall : ∀ x ∈ s.pending, event x = .goesOn) :
    runStop event s.pending.length s = .goingOn := by
  obtain ⟨-, hgo⟩ | ⟨xs, x, rest, hp, -, hstop⟩ := runStop_cases event s
  · exact hgo
  · simp [hall x (by simp [hp])] at hstop

/-- A run that ended did so at the first input that did not let it go on. -/
theorem inputs_of_runStop_ended {event : HostInput → RunEvent} {s t : State}
    (h : runStop event s.pending.length s = .ended t) :
    ∃ xs x rest, s.pending = xs ++ x :: rest ∧ (∀ y ∈ xs, event y = .goesOn) ∧ event x = .ends := by
  obtain ⟨-, hgo⟩ | ⟨xs, x, rest, hp, hgo, ⟨-, hcut⟩ | ⟨hends, -⟩⟩ := runStop_cases event s
  · cases hgo.symm.trans h
  · cases hcut.symm.trans h
  · exact ⟨xs, x, rest, hp, hgo, hends⟩

/-! ### The packer's run -/

/-- P.END, and no other input, ends a run of the packer. -/
theorem packerRunEvent_eq_ends {x : HostInput} (hx : packerRunEvent x = .ends) :
    ∃ w, x = .cmd w ∧ decode w = .pEnd := by
  cases x with
  | cmd w =>
    refine ⟨w, rfl, ?_⟩
    rw [packerRunEvent] at hx
    cases hw : decode w with
    | pEnd => rfl
    | pNop | pPush _ | pClr | uNop | uPush _ | uEnd | uClr => cases hw ▸ hx
  | rst => cases hx

theorem packerRunEvent_eq_cutsShort {x : HostInput}
    (hx : (∃ w, x = .cmd w ∧ decode w = .pClr) ∨ ∃ p u, x = .rst p u) : packerRunEvent x = .cutsShort := by
  obtain ⟨w, rfl, hw⟩ | ⟨p, u, rfl⟩ := hx
  · rw [packerRunEvent, hw, packerWordEvent]
  · rfl

/-- A P.CLR or reset before the P.END cuts a run of the packer short. -/
theorem packerRun_cutShort {s : State} {xs : List HostInput} {x : HostInput} (hs : pkInitial s)
    (hgo : ∀ y ∈ xs, packerRunEvent y = .goesOn) (hx : packerRunEvent x = .cutsShort) :
    packerRun (s.presenting (xs ++ [x])) = .cutShort := by
  have hstart : pkInitial (s.presenting (xs ++ [x])) := hs
  rw [packerRun, if_pos hstart, runStop_cutShort (presenting_snoc_pending s xs x) hgo hx]

/-- A run of the packer goes on while nothing that ends it or cuts it short is presented. -/
theorem packerRun_goingOn {s : State} (hs : pkInitial s) (hall : ∀ x ∈ s.pending, packerRunEvent x = .goesOn) :
    packerRun s = .goingOn := by
  rw [packerRun, if_pos hs, runStop_goingOn hall]

/-- A run of the packer that has a result started in the initial condition and ended. -/
theorem ended_of_packerRun_result {s : State} {out : List Byte} (h : packerRun s = .result out) :
    pkInitial s ∧ ∃ t, runStop packerRunEvent s.pending.length s = .ended t := by
  unfold packerRun at h
  split_ifs at h with hs
  refine ⟨hs, ?_⟩
  cases hstop : runStop packerRunEvent s.pending.length s with
  | ended t => exact ⟨t, rfl⟩
  | goingOn | cutShort => simp [hstop] at h

/-- A run of the packer has a result only by its P.END, and then that of the codes pushed before it. -/
theorem inputs_of_packerRun_result {s : State} {out : List Byte} (h : packerRun s = .result out) :
    pkInitial s ∧ ∃ xs w rest, s.pending = xs ++ .cmd w :: rest ∧
      (∀ x ∈ xs, packerRunEvent x = .goesOn) ∧ decode w = .pEnd ∧ out = pack (pushedCodes xs) := by
  obtain ⟨hs, t, hstop⟩ := ended_of_packerRun_result h
  obtain ⟨xs, x, rest, hp, hgo, hends⟩ := inputs_of_runStop_ended hstop
  obtain ⟨w, rfl, hw⟩ := packerRunEvent_eq_ends hends
  have hpresented := eq_presenting (xs := xs ++ [.cmd w]) (rest := rest) (by simpa using hp)
  rw [hpresented, packerRun_result (s := { s with pending := rest }) hs hgo hw] at h
  exact ⟨hs, xs, w, rest, hp, hgo, hw, (RunOutcome.result.inj h).symm⟩

/-! ### The unpacker's run -/

/-- U.END, and no other input, ends a run of the unpacker. -/
theorem unpackerRunEvent_eq_ends {x : HostInput} (hx : unpackerRunEvent x = .ends) :
    ∃ w, x = .cmd w ∧ decode w = .uEnd := by
  cases x with
  | cmd w =>
    refine ⟨w, rfl, ?_⟩
    rw [unpackerRunEvent] at hx
    cases hw : decode w with
    | uEnd => rfl
    | pNop | pPush _ | pEnd | pClr | uNop | uPush _ | uClr => cases hw ▸ hx
  | rst => cases hx

theorem unpackerRunEvent_eq_cutsShort {x : HostInput}
    (hx : (∃ w, x = .cmd w ∧ decode w = .uClr) ∨ ∃ p u, x = .rst p u) : unpackerRunEvent x = .cutsShort := by
  obtain ⟨w, rfl, hw⟩ | ⟨p, u, rfl⟩ := hx
  · rw [unpackerRunEvent, hw, unpackerWordEvent]
  · rfl

/-- A U.CLR or reset before the U.END cuts a run of the unpacker short. -/
theorem unpackerRun_cutShort {s : State} {xs : List HostInput} {x : HostInput} (hs : upInitial s)
    (hgo : ∀ y ∈ xs, unpackerRunEvent y = .goesOn) (hx : unpackerRunEvent x = .cutsShort) :
    unpackerRun (s.presenting (xs ++ [x])) = .cutShort := by
  have hstart : upInitial (s.presenting (xs ++ [x])) := hs
  rw [unpackerRun, if_pos hstart, runStop_cutShort (presenting_snoc_pending s xs x) hgo hx]

/-- A run of the unpacker goes on while nothing that ends it or cuts it short is presented. -/
theorem unpackerRun_goingOn {s : State} (hs : upInitial s) (hall : ∀ x ∈ s.pending, unpackerRunEvent x = .goesOn) :
    unpackerRun s = .goingOn := by
  rw [unpackerRun, if_pos hs, runStop_goingOn hall]

/-- The end of a run by the registers it leaves: the leftover count under `UP.ERR = 1`, else the codes appended. -/
theorem unpackerRun_ended {s t : State} (hs : upInitial s)
    (h : runStop unpackerRunEvent s.pending.length s = .ended t) :
    unpackerRun s =
      if errOf t.up then .faulted (cntOf t.up).toNat else .result (t.up.out.drop s.up.out.length) := by
  rw [unpackerRun, if_pos hs, h]
  cases hctl : t.up.ctl with
  | running held => simp [errOf, hctl]
  | faulted left => simp [errOf, cntOf, hctl]

/-- A run of the unpacker that has a result started in the initial condition and ended. -/
theorem ended_of_unpackerRun_result {s : State} {out : List Code} (h : unpackerRun s = .result out) :
    upInitial s ∧ ∃ t, runStop unpackerRunEvent s.pending.length s = .ended t := by
  unfold unpackerRun at h
  split_ifs at h with hs
  refine ⟨hs, ?_⟩
  cases hstop : runStop unpackerRunEvent s.pending.length s with
  | ended t => exact ⟨t, rfl⟩
  | goingOn | cutShort => simp [hstop] at h

/-- What a run of the unpacker to its U.END comes to, by what `unpack` gives for the bytes pushed. -/
def Unpacked.runOutcome : Unpacked → RunOutcome (List Code)
  | .codes cs => .result cs
  | .formatError left => .faulted left

theorem runOutcome_eq_result {r : Unpacked} {out : List Code} (h : r.runOutcome = .result out) : r = .codes out := by
  cases r with
  | codes cs => rw [RunOutcome.result.inj h]
  | formatError left => cases h

theorem unpack_of_leftover {bs : List Byte} (h : bs.length % 3 ≠ 0) : unpack bs = .formatError (bs.length % 3) :=
  if_neg h

/-- A run of the unpacker from the initial condition to its U.END comes to what `unpack` gives for the bytes pushed,
whatever words of the packer come among its own. -/
theorem unpackerRun_runOutcome {s : State} {xs : List HostInput} {w : CommandWord} (hs : upInitial s)
    (hgo : ∀ x ∈ xs, unpackerRunEvent x = .goesOn) (hw : decode w = .uEnd) :
    unpackerRun (s.presenting (xs ++ [.cmd w])) = (unpack (pushedBytes xs)).runOutcome := by
  obtain ⟨t, ht, -, hout, hcnt, -, herr⟩ := steps_unpacker_run hs hgo hw
  have hend : unpackerRunEvent (.cmd w) = .ends := by rw [unpackerRunEvent, hw, unpackerWordEvent]
  have hstop := runStop_ended (presenting_snoc_pending s xs (.cmd w)) hgo hend ht
  have hstart : upInitial (s.presenting (xs ++ [.cmd w])) := hs
  rw [unpackerRun_ended hstart hstop, hcnt]
  by_cases hwhole : (pushedBytes xs).length % 3 = 0
  · rw [unpack_of_whole hwhole, if_neg (by simp [herr, hwhole]), hout]
    simp [State.presenting, Unpacked.runOutcome]
  · rw [unpack_of_leftover hwhole, if_pos (herr.2 hwhole), Unpacked.runOutcome]

/-- A run of the unpacker has a result only by its U.END, and then the codes of the bytes pushed before it. -/
theorem inputs_of_unpackerRun_result {s : State} {out : List Code} (h : unpackerRun s = .result out) :
    upInitial s ∧ ∃ xs w rest, s.pending = xs ++ .cmd w :: rest ∧
      (∀ x ∈ xs, unpackerRunEvent x = .goesOn) ∧ decode w = .uEnd ∧ unpack (pushedBytes xs) = .codes out := by
  obtain ⟨hs, t, hstop⟩ := ended_of_unpackerRun_result h
  obtain ⟨xs, x, rest, hp, hgo, hends⟩ := inputs_of_runStop_ended hstop
  obtain ⟨w, rfl, hw⟩ := unpackerRunEvent_eq_ends hends
  have hpresented := eq_presenting (xs := xs ++ [.cmd w]) (rest := rest) (by simpa using hp)
  rw [hpresented, unpackerRun_runOutcome (s := { s with pending := rest }) hs hgo hw] at h
  exact ⟨hs, xs, w, rest, hp, hgo, hw, runOutcome_eq_result h⟩

/-- Settles O46: what a run to its END comes to, that only such a run has a result, and what following a run that is cut
short or still open finds. -/
theorem runResultsAreTheFunctions : Obligations.RunResultsAreTheFunctions := by
  refine ⟨fun s xs w hs hgo hw => ?_, fun s xs w hs hgo hw => ?_, fun _ _ => inputs_of_packerRun_result,
    fun _ _ => inputs_of_unpackerRun_result, fun s xs x => ⟨fun hs hgo hx => ?_, fun hs hgo hx => ?_⟩,
    fun _ => ⟨packerRun_goingOn, unpackerRun_goingOn⟩⟩
  · obtain ⟨t, ht, -, -, hout⟩ := steps_packer_run (s := s) hgo hw
    rw [heldCodes_of_empty hs, List.nil_append] at hout
    exact ⟨t, ht, hout, packerRun_result hs hgo hw⟩
  · obtain ⟨t, ht, -, hout, -, -, herr⟩ := steps_unpacker_run hs hgo hw
    refine ⟨t, ht, fun cs hcs => ?_, fun n hn => ?_⟩
    · obtain ⟨hwhole, rfl⟩ := (unpack_eq_codes_iff _ _).1 hcs
      exact ⟨by simpa [hwhole] using herr, hout, by rw [unpackerRun_runOutcome hs hgo hw, hcs, Unpacked.runOutcome]⟩
    · have hleft : (pushedBytes xs).length % 3 ≠ 0 := fun hwhole => by simp [unpack_of_whole hwhole] at hn
      exact ⟨herr.2 hleft, by rw [unpackerRun_runOutcome hs hgo hw, hn, Unpacked.runOutcome]⟩
  · exact packerRun_cutShort hs hgo (packerRunEvent_eq_cutsShort hx)
  · exact unpackerRun_cutShort hs hgo (unpackerRunEvent_eq_cutsShort hx)

/-! ### A P.END met early (R116) -/

/-- After an odd number of codes the next sequence packs as if the virtual code stood before it. -/
theorem pack_append_pack_of_odd {cs : List Code} (h : cs.length % 2 = 1) (ds : List Code) :
    pack cs ++ pack ds = pack (cs ++ 0#12 :: ds) := by
  have heven : (cs ++ [0#12]).length % 2 = 0 := by
    rw [List.length_append, List.length_singleton]
    omega
  calc pack cs ++ pack ds
    _ = pack (cs ++ [0#12]) ++ pack ds := by rw [← pack_padEven, padEven_of_odd h]
    _ = pack (cs ++ 0#12 :: ds) := by rw [← pack_append heven, List.append_assoc, List.singleton_append]

/-- The even completion of a sequence begins with it. -/
theorem take_length_padEven (cs : List Code) : (padEven cs).take cs.length = cs := by
  rcases Nat.mod_two_eq_zero_or_one cs.length with h | h
  · rw [padEven_of_even h, List.take_length]
  · rw [padEven_of_odd h, List.take_left]

/-- Two runs of the packer, one after the other, append the packing of each (R109). -/
theorem steps_two_packer_runs {s : State} {xs ys : List HostInput} {v w : CommandWord} (hs : pkInitial s)
    (hxs : ∀ x ∈ xs, packerRunEvent x = .goesOn) (hv : decode v = .pEnd)
    (hys : ∀ y ∈ ys, packerRunEvent y = .goesOn) (hw : decode w = .pEnd) :
    ∃ t, steps (xs.length + 1 + (ys.length + 1)) (s.presenting (xs ++ .cmd v :: (ys ++ [.cmd w]))) = .next t ∧
      t.pk.out = s.pk.out ++ (pack (pushedCodes xs) ++ pack (pushedCodes ys)) := by
  obtain ⟨u, hu, hpending, hfull, hmid⟩ := steps_packer_run (s := s.presenting (ys ++ [.cmd w])) hxs hv
  obtain ⟨t, ht, -, -, hout⟩ := steps_packer_run (s := { u with pending := s.pending }) hys hw
  have hsplit : s.presenting (xs ++ .cmd v :: (ys ++ [.cmd w])) =
      (s.presenting (ys ++ [.cmd w])).presenting (xs ++ [.cmd v]) := by
    simp [State.presenting]
  have hheld : heldCodes (s.presenting (ys ++ [.cmd w])).pk = [] := heldCodes_of_empty hs
  refine ⟨t, ?_, ?_⟩
  · rw [hsplit, steps_add hu, eq_presenting hpending, ht]
  · rw [hheld, List.nil_append] at hmid
    rw [hout, heldCodes_of_empty hfull, List.nil_append, hmid, List.append_assoc]
    rfl

/-- Settles O53: what the two runs append is one packing, with the virtual code between them, and unpacking gives its
even completion. -/
theorem earlyEndInsertsZero : Obligations.EarlyEndInsertsZero := by
  refine ⟨fun s xs ys v w hs hxs hys hv hw hodd => ?_, fun cs ds h => pack_append_pack_of_odd h ds⟩
  obtain ⟨t, ht, hout⟩ :=
    steps_two_packer_runs hs (goesOn_of_all_carriesCodes hxs) hv (goesOn_of_all_carriesCodes hys) hw
  rw [pack_append_pack_of_odd hodd] at hout
  refine ⟨t, padEven (pushedCodes xs ++ 0#12 :: pushedCodes ys), ht, hout, ?_, ?_⟩
  · rw [hout, List.drop_left, unpack_pack]
  · have hlength : (pushedCodes xs).length + 1 + (pushedCodes ys).length =
        (pushedCodes xs ++ 0#12 :: pushedCodes ys).length := by
      rw [List.length_append, List.length_cons]
      omega
    rw [hlength, take_length_padEven]

/-! ### Reset (R105) -/

/-- The registers and the status words in the initial condition of both units (R18, R19, R24, R99). -/
theorem status_of_initial {s : State} (hpk : pkInitial s) (hup : upInitial s) :
    cntOf s.up = 0#2 ∧ errOf s.up = false ∧ pstat s = 0#1 ∧ ustat s = 0#3 ∧ upErr s = 0#1 := by
  have herr := errOf_of_running hup
  exact ⟨cntOf_of_running hup, herr, by simp [pstat, hpk], ustat_of_upInitial hup,
    (upErr_eq_zero_iff s).2 herr⟩

/-- Settles O5: the reset state, and the one a reset leads to, are initial with empty records. -/
theorem resetGivesTheInitialState : Obligations.ResetGivesTheInitialState := by
  refine ⟨fun s p u rest hp => ⟨_, step_of_rst hp, rfl, rfl, ?_⟩, rfl, rfl, ?_⟩
  · obtain ⟨hcnt, herr, hpstat, hustat, hline⟩ :=
      status_of_initial (s := applyReset { s with pending := rest }) rfl rfl
    exact ⟨hcnt, herr, rfl, hpstat, hustat, hline, rfl⟩
  · obtain ⟨hcnt, herr, hstatus⟩ := status_of_initial (s := State.reset) rfl rfl
    exact ⟨hcnt, herr, rfl, hstatus⟩

/-! ### Reset, CLR and END compared (R107) -/

/-- The bytes held are the first `UP.CNT` of the two data registers (R14, R15). -/
theorem heldBytes_eq_take (u : Unpacker) : heldBytes u = [u.b0, u.b1].take (cntOf u).toNat := by
  obtain ⟨b0, b1, ctl, out⟩ := u
  rcases ctl with (_ | _ | _) | (_ | _) <;> rfl

/-- U.END leaves the unit as it was in the initial condition, and faulted from every other (R68, R70). -/
theorem exec_uEnd_errOf_iff_not_upInitial {s t : State} (h : exec .uEnd s = .next t) :
    errOf t.up = true ↔ ¬ upInitial s := by
  cases he : errOf s.up with
  | true =>
    rw [next_unique h (exec_uEnd_of_no_leftover (.inl he))]
    simp [upInitial_iff, he]
  | false =>
    obtain ⟨t', ht', hiff⟩ := exec_uEnd_errOf_iff he
    rw [next_unique h ht', hiff, upInitial_iff, ← BitVec.toNat_inj.ne]
    simp [he]

theorem exec_uEnd_upInitial_iff {s t : State} (h : exec .uEnd s = .next t) : upInitial t ↔ upInitial s := by
  constructor
  · intro ht
    by_contra hs
    simpa [errOf_of_running ht] using (exec_uEnd_errOf_iff_not_upInitial h).2 hs
  · intro hs
    rwa [next_unique h (execUEnd_of_zero hs)]

theorem exec_pClr (s : State) : exec .pClr s = .next (setFull false s) := rfl

/-- Settles O58, a row at a time: reset, the two CLR words, P.END and U.END. -/
theorem resetClrAndEndCompared : Obligations.ResetClrAndEndCompared := by
  refine fun s => ⟨⟨_, step_of_rst rfl, rfl, rfl, rfl, rfl⟩, ⟨_, exec_pClr s, rfl, rfl, .refl s.up⟩,
    ⟨_, exec_uClr s, rfl, rfl, .refl s.pk⟩, ?_, ?_⟩
  · obtain ⟨t, ht, -⟩ := exec_next .pEnd s
    obtain ⟨hfull, hout⟩ := exec_pEnd_emits ht
    exact ⟨t, ht, hfull, exec_up_of_port_pk rfl ht ▸ .refl s.up, hout⟩
  · obtain ⟨t, ht, -⟩ := exec_next .uEnd s
    obtain ⟨hcnt, hb0, hb1, hout⟩ := exec_uEnd_frame ht
    have hheld : heldBytes t.up = heldBytes s.up := by
      rw [heldBytes_eq_take, hcnt, hb0, hb1, ← heldBytes_eq_take]
    exact ⟨t, ht, hout, exec_pk_of_port_up rfl ht ▸ .refl s.pk, hheld, exec_uEnd_upInitial_iff ht,
      exec_uEnd_errOf_iff_not_upInitial ht⟩

end Sys2Proof.Machine

/-! The model's own choices at the step: nothing presented (log 4), and a placed opcode-table word (logs 8, 9). -/

namespace Sys2Proof.Machine

/-! ### Nothing presented -/

/-- Settles O2: the rule of a step that finds nothing presented. -/
theorem idleStepChangesNothing : Obligations.IdleStepChangesNothing :=
  fun s h => ⟨s, step_of_idle h, .refl s⟩

/-! ### An opcode-table word placed at the inputs -/

/-- The instruction of an opcode-table number is the one that the command word it names decodes to. -/
theorem decodeTableWord_eq_some_iff {nbits w : Nat} {i : Instr} :
    decodeTableWord nbits w = some i ↔ ∃ cw, tableWord nbits w = some cw ∧ decode cw = i := by
  cases h : tableWord nbits w <;> simp [decodeTableWord, h]

/-- A number that names a command word places that word before the host's other inputs. -/
theorem withFetchWord_of_tableWord {nbits w : Nat} {cw : CommandWord} (h : tableWord nbits w = some cw) (s : State) :
    s.withFetchWord nbits w = { s with pending := .cmd cw :: s.pending } := by
  simp [State.withFetchWord, h]

/-- Settles O6: the number names a command word, which stands first once placed, and the step that takes it leaves the
host's inputs as they were before. -/
theorem placedTableWordRunsNext : Obligations.PlacedTableWordRunsNext := by
  intro s nbits w i hi
  obtain ⟨cw, hcw, rfl⟩ := decodeTableWord_eq_some_iff.1 hi
  rw [withFetchWord_of_tableWord hcw]
  exact step_of_cmd rfl

end Sys2Proof.Machine
